-- ==== Sys2Proof/Word.lean ====
section
/-! DEFINITION. The widths the spec gives its values (R6, R92): names for bit vectors, nothing else. -/

namespace Sys2Proof

/-- A memory cell, a general register, an immediate `kk`: 8 bits (R6). -/
abbrev Byte := BitVec 8

/-- An instruction word, `I`, `PC`, a stack entry: 16 bits (R6). -/
abbrev Word := BitVec 16

/-- A register number, a key number, a sprite height, one hexadecimal digit of a word: 4 bits (R92). -/
abbrev Nibble := BitVec 4

/-- The address field `nnn`: 12 bits (R92). -/
abbrev Addr := BitVec 12

/-- `SEED`: an unsigned 64-bit integer (R181). -/
abbrev Seed := BitVec 64

end Sys2Proof
end

