-- ==== Sys2Proof/Syntax.lean ====
section
/-! DEFINITION. The instruction set: one constructor for each of the 35 shapes of R95, in the table's order, with the
fields its format gives it (R91, R92). -/

namespace Sys2Proof

/-- The 35 opcode shapes (R95). Every field has the width R92 gives it, so that all 16 registers are legal in every
instruction (R93); the one field value that is not the shape's own is excluded by `Instr.WellFormed`. -/
inductive Instr where
  /-- `00E0` (R141) -/
  | cls
  /-- `00EE` (R161) -/
  | ret
  /-- `0nnn` with `nnn` neither `0E0` nor `0EE` (R164) -/
  | sys (nnn : Addr)
  /-- `1nnn` (R162) -/
  | jp (nnn : Addr)
  /-- `2nnn` (R160) -/
  | call (nnn : Addr)
  /-- `3xkk` (R150) -/
  | seImm (x : Nibble) (kk : Byte)
  /-- `4xkk` (R151) -/
  | sneImm (x : Nibble) (kk : Byte)
  /-- `5xy0` (R152) -/
  | seReg (x y : Nibble)
  /-- `6xkk` (R120) -/
  | ldImm (x : Nibble) (kk : Byte)
  /-- `7xkk` (R121) -/
  | addImm (x : Nibble) (kk : Byte)
  /-- `8xy0` (R122) -/
  | ldReg (x y : Nibble)
  /-- `8xy1` (R123) -/
  | orReg (x y : Nibble)
  /-- `8xy2` (R124) -/
  | andReg (x y : Nibble)
  /-- `8xy3` (R125) -/
  | xorReg (x y : Nibble)
  /-- `8xy4` (R126) -/
  | addReg (x y : Nibble)
  /-- `8xy5` (R127) -/
  | subReg (x y : Nibble)
  /-- `8xy6` (R128); `y` is decoded and kept although `Q_SHIFT_SRC = VX` does not use it (R97) -/
  | shr (x y : Nibble)
  /-- `8xy7` (R129) -/
  | subn (x y : Nibble)
  /-- `8xyE` (R130); `y` as for `shr` -/
  | shl (x y : Nibble)
  /-- `9xy0` (R153) -/
  | sneReg (x y : Nibble)
  /-- `Annn` (R185) -/
  | ldI (nnn : Addr)
  /-- `Bnnn` (R163) -/
  | jpV0 (nnn : Addr)
  /-- `Cxkk` (R180) -/
  | rnd (x : Nibble) (kk : Byte)
  /-- `Dxyn` (R140) -/
  | drw (x y n : Nibble)
  /-- `Ex9E` (R154) -/
  | skp (x : Nibble)
  /-- `ExA1` (R155) -/
  | sknp (x : Nibble)
  /-- `Fx07` (R171) -/
  | ldVxDt (x : Nibble)
  /-- `Fx0A` (R170) -/
  | ldVxK (x : Nibble)
  /-- `Fx15` (R172) -/
  | ldDtVx (x : Nibble)
  /-- `Fx18` (R173) -/
  | ldStVx (x : Nibble)
  /-- `Fx1E` (R186) -/
  | addI (x : Nibble)
  /-- `Fx29` (R187) -/
  | ldF (x : Nibble)
  /-- `Fx33` (R188) -/
  | ldB (x : Nibble)
  /-- `Fx55` (R189) -/
  | storeRegs (x : Nibble)
  /-- `Fx65` (R190) -/
  | loadRegs (x : Nibble)
  deriving DecidableEq, Repr

end Sys2Proof
end

