-- ==== Sys2Proof/Decode.lean ====
section
/-! DEFINITION. From a 16-bit word to one of the 35 shapes (R94, R95), the byte order of a word (R64), and the encoder
written from the same table. -/

namespace Sys2Proof

/-- Why the decoder refuses. -/
inductive DecodeError where
  /-- no shape of R95 matches the word (R98) -/
  | invalidOpcode (word : Word)
  /-- fewer than the two bytes every instruction has (R90) -/
  | tooShort
  deriving DecidableEq, Repr

/-- `op = w[15:12]` (R92). -/
def opField (w : Word) : Nibble := w.extractLsb' 12 4

/-- `x = w[11:8]` (R92). -/
def xField (w : Word) : Nibble := w.extractLsb' 8 4

/-- `y = w[7:4]` (R92). -/
def yField (w : Word) : Nibble := w.extractLsb' 4 4

/-- `n = w[3:0]` (R92). -/
def nField (w : Word) : Nibble := w.extractLsb' 0 4

/-- `kk = w[7:0]` (R92). -/
def kkField (w : Word) : Byte := w.extractLsb' 0 8

/-- `nnn = w[11:0]` (R92). -/
def nnnField (w : Word) : Addr := w.extractLsb' 0 12

/-- The shapes with high digit 8, by the function digit `n` (R94 step 6). -/
def decodeOp8 (w : Word) : Except DecodeError Instr :=
  match (nField w).toNat with
  | 0x0 => .ok (.ldReg (xField w) (yField w))
  | 0x1 => .ok (.orReg (xField w) (yField w))
  | 0x2 => .ok (.andReg (xField w) (yField w))
  | 0x3 => .ok (.xorReg (xField w) (yField w))
  | 0x4 => .ok (.addReg (xField w) (yField w))
  | 0x5 => .ok (.subReg (xField w) (yField w))
  | 0x6 => .ok (.shr (xField w) (yField w))
  | 0x7 => .ok (.subn (xField w) (yField w))
  | 0xE => .ok (.shl (xField w) (yField w))
  | _ => .error (.invalidOpcode w)

/-- The shapes with high digit E, by the function byte `kk` (R94 step 7). -/
def decodeOpE (w : Word) : Except DecodeError Instr :=
  match (kkField w).toNat with
  | 0x9E => .ok (.skp (xField w))
  | 0xA1 => .ok (.sknp (xField w))
  | _ => .error (.invalidOpcode w)

/-- The shapes with high digit F, by the function byte `kk` (R94 step 8). -/
def decodeOpF (w : Word) : Except DecodeError Instr :=
  match (kkField w).toNat with
  | 0x07 => .ok (.ldVxDt (xField w))
  | 0x0A => .ok (.ldVxK (xField w))
  | 0x15 => .ok (.ldDtVx (xField w))
  | 0x18 => .ok (.ldStVx (xField w))
  | 0x1E => .ok (.addI (xField w))
  | 0x29 => .ok (.ldF (xField w))
  | 0x33 => .ok (.ldB (xField w))
  | 0x55 => .ok (.storeRegs (xField w))
  | 0x65 => .ok (.loadRegs (xField w))
  | _ => .error (.invalidOpcode w)

/-- The shapes with high digit 0, first match wins (R94 steps 1 to 3). -/
def decodeOp0 (w : Word) : Instr :=
  if w = 0x00E0#16 then .cls
  else if w = 0x00EE#16 then .ret
  else .sys (nnnField w)

/-- `decode`: total on all 65536 words (R94, R101). -/
def decode (w : Word) : Except DecodeError Instr :=
  match (opField w).toNat with
  | 0x0 => .ok (decodeOp0 w)
  | 0x1 => .ok (.jp (nnnField w))
  | 0x2 => .ok (.call (nnnField w))
  | 0x3 => .ok (.seImm (xField w) (kkField w))
  | 0x4 => .ok (.sneImm (xField w) (kkField w))
  | 0x5 => if nField w = 0#4 then .ok (.seReg (xField w) (yField w)) else .error (.invalidOpcode w)
  | 0x6 => .ok (.ldImm (xField w) (kkField w))
  | 0x7 => .ok (.addImm (xField w) (kkField w))
  | 0x8 => decodeOp8 w
  | 0x9 => if nField w = 0#4 then .ok (.sneReg (xField w) (yField w)) else .error (.invalidOpcode w)
  | 0xA => .ok (.ldI (nnnField w))
  | 0xB => .ok (.jpV0 (nnnField w))
  | 0xC => .ok (.rnd (xField w) (kkField w))
  | 0xD => .ok (.drw (xField w) (yField w) (nField w))
  | 0xE => decodeOpE w
  | _ => decodeOpF w

/-- The word of two bytes, the first at the lower address: big-endian (R64). -/
def wordOfBytes (hi lo : Byte) : Word := hi ++ lo

/-- The bytes of a word in the order of their addresses: big-endian (R64). -/
def bytesOfWord (w : Word) : List Byte := [w.extractLsb' 8 8, w.extractLsb' 0 8]

/-- The decoder on bytes in the order of their addresses; bytes after the first two are another instruction's (R90). -/
def decodeBytes (bytes : List Byte) : Except DecodeError Instr :=
  match bytes with
  | hi :: lo :: _ => decode (wordOfBytes hi lo)
  | _ => .error .tooShort

/-- Format `NNN`: an opcode digit and `nnn` (R91). -/
def wordNNN (op : Nibble) (nnn : Addr) : Word := op ++ nnn

/-- Formats `XKK` and `X`: an opcode digit, `x` and a byte that is `kk` or the function code (R91). -/
def wordXKK (op x : Nibble) (kk : Byte) : Word := op ++ x ++ kk

/-- Formats `XY` and `XYN`: an opcode digit, `x`, `y` and a digit that is `n` or the function code (R91). -/
def wordXYN (op x y n : Nibble) : Word := op ++ x ++ y ++ n

/-- The word of an instruction, from the patterns of R95. -/
def encode (i : Instr) : Word :=
  match i with
  | .cls => 0x00E0#16
  | .ret => 0x00EE#16
  | .sys nnn => wordNNN 0x0#4 nnn
  | .jp nnn => wordNNN 0x1#4 nnn
  | .call nnn => wordNNN 0x2#4 nnn
  | .seImm x kk => wordXKK 0x3#4 x kk
  | .sneImm x kk => wordXKK 0x4#4 x kk
  | .seReg x y => wordXYN 0x5#4 x y 0x0#4
  | .ldImm x kk => wordXKK 0x6#4 x kk
  | .addImm x kk => wordXKK 0x7#4 x kk
  | .ldReg x y => wordXYN 0x8#4 x y 0x0#4
  | .orReg x y => wordXYN 0x8#4 x y 0x1#4
  | .andReg x y => wordXYN 0x8#4 x y 0x2#4
  | .xorReg x y => wordXYN 0x8#4 x y 0x3#4
  | .addReg x y => wordXYN 0x8#4 x y 0x4#4
  | .subReg x y => wordXYN 0x8#4 x y 0x5#4
  | .shr x y => wordXYN 0x8#4 x y 0x6#4
  | .subn x y => wordXYN 0x8#4 x y 0x7#4
  | .shl x y => wordXYN 0x8#4 x y 0xE#4
  | .sneReg x y => wordXYN 0x9#4 x y 0x0#4
  | .ldI nnn => wordNNN 0xA#4 nnn
  | .jpV0 nnn => wordNNN 0xB#4 nnn
  | .rnd x kk => wordXKK 0xC#4 x kk
  | .drw x y n => wordXYN 0xD#4 x y n
  | .skp x => wordXKK 0xE#4 x 0x9E#8
  | .sknp x => wordXKK 0xE#4 x 0xA1#8
  | .ldVxDt x => wordXKK 0xF#4 x 0x07#8
  | .ldVxK x => wordXKK 0xF#4 x 0x0A#8
  | .ldDtVx x => wordXKK 0xF#4 x 0x15#8
  | .ldStVx x => wordXKK 0xF#4 x 0x18#8
  | .addI x => wordXKK 0xF#4 x 0x1E#8
  | .ldF x => wordXKK 0xF#4 x 0x29#8
  | .ldB x => wordXKK 0xF#4 x 0x33#8
  | .storeRegs x => wordXKK 0xF#4 x 0x55#8
  | .loadRegs x => wordXKK 0xF#4 x 0x65#8

/-- The 16-bit word that `nbits` bits numbered as the opcode table numbers them stand for: bit 0 of `w` is bit 0 of the
word, and the bits from `nbits` up are 0. -/
def tableWord (nbits w : Nat) : Word := BitVec.ofNat 16 (w % 2 ^ nbits)

/-- The instruction the decoder reads from the bytes of a table word. -/
def decodeTableWord (nbits w : Nat) : Option Instr :=
  (decodeBytes (bytesOfWord (tableWord nbits w))).toOption

end Sys2Proof
end

