-- ==== Sys2Proof/Config.lean ====
section
/-! DEFINITION. What an implementation fixes (R6 to R8): the constants of R6, the possible values of the quirk
parameters, and the open parameters of the generator as constants nothing in Lean can evaluate. The values the spec
decides for the quirk parameters stand in Machine/Quirks.lean. -/

namespace Sys2Proof

/-- `SYS_POLICY`: what the shape `0nnn` does (R164). -/
inductive SysPolicy where
  /-- raise `InvalidOpcode` -/
  | fault
  /-- advance `PC` only -/
  | nop
  deriving DecidableEq, Repr

/-- `Q_SHIFT_SRC`: which register `SHR` and `SHL` shift (R8, R128, R130). -/
inductive ShiftSrc where
  | vx
  | vy
  deriving DecidableEq, Repr

/-- `Q_MEM_INC`: how `LD [I], Vx` and `LD Vx, [I]` leave `I` (R8, R189, R190). -/
inductive MemInc where
  /-- `I` unchanged -/
  | none
  /-- `I + x + 1` -/
  | xPlus1
  /-- `I + x` -/
  | x
  deriving DecidableEq, Repr

/-- `MEM_SIZE` (R6). -/
def Config.memSize : Nat := 4096

/-- `PROG_BASE`: where a ROM is loaded and where execution starts (R6). -/
def Config.progBase : Nat := 0x200

/-- `ROM_MAX` (R6). -/
def Config.romMax : Nat := 3584

/-- `STACK_DEPTH` (R6). -/
def Config.stackDepth : Nat := 16

/-- `RNG_STATE` (R7, R181). DESIGN CHOICE (safe, entry 8): a natural number, into which the states of any generator can
be coded; with both functions below unknown, no generator is excluded. -/
abbrev Config.RngState := Nat

/-- `rng_seed` (R181): a total function of the seed and nothing else is known of it. A free value, entry 8. -/
opaque Config.rngSeed : Seed → Config.RngState

/-- `rng_next` (R181): a total function of the generator's state, giving a byte and the next state, and nothing else is
known of it. A free value, entry 8. -/
opaque Config.rngNext : Config.RngState → Byte × Config.RngState

/-- `DEFAULT_SEED` (R181, R250): the seed of a reset to which the host gives none; OPEN in the spec. A free value,
entry 8. -/
opaque Config.defaultSeed : Seed

end Sys2Proof
end

