-- ==== Sys2Proof/Machine/Quirks.lean ====
section
/-! DEFINITION. The values the spec decides for the parameters doc00 leaves open (R7, R8). -/

namespace Sys2Proof.Machine

/-- `SYS_POLICY = fault` (R164, decision D3; entry 6). -/
def sysPolicy : SysPolicy := .fault

/-- `Q_SHIFT_SRC = VX` (R8, decision D5; entry 4). -/
def shiftSrc : ShiftSrc := .vx

/-- `Q_MEM_INC = NONE` (R8, decision D6; entry 5). -/
def memInc : MemInc := .none

/-- `FONT_BASE = 0x000` (R31, decision D12; entry 7). -/
def fontBase : Nat := 0x000

/-- `FONT`: 16 glyphs of 5 bytes, glyph `d` at `5d`, top row first (R31; entry 7). -/
def font : List Byte :=
  [0xF0#8, 0x90#8, 0x90#8, 0x90#8, 0xF0#8] ++
  [0x20#8, 0x60#8, 0x20#8, 0x20#8, 0x70#8] ++
  [0xF0#8, 0x10#8, 0xF0#8, 0x80#8, 0xF0#8] ++
  [0xF0#8, 0x10#8, 0xF0#8, 0x10#8, 0xF0#8] ++
  [0x90#8, 0x90#8, 0xF0#8, 0x10#8, 0x10#8] ++
  [0xF0#8, 0x80#8, 0xF0#8, 0x10#8, 0xF0#8] ++
  [0xF0#8, 0x80#8, 0xF0#8, 0x90#8, 0xF0#8] ++
  [0xF0#8, 0x10#8, 0x20#8, 0x40#8, 0x40#8] ++
  [0xF0#8, 0x90#8, 0xF0#8, 0x90#8, 0xF0#8] ++
  [0xF0#8, 0x90#8, 0xF0#8, 0x10#8, 0xF0#8] ++
  [0xF0#8, 0x90#8, 0xF0#8, 0x90#8, 0x90#8] ++
  [0xE0#8, 0x90#8, 0xE0#8, 0x90#8, 0xE0#8] ++
  [0xF0#8, 0x80#8, 0x80#8, 0x80#8, 0xF0#8] ++
  [0xE0#8, 0x90#8, 0x90#8, 0x90#8, 0xE0#8] ++
  [0xF0#8, 0x80#8, 0xF0#8, 0x80#8, 0xF0#8] ++
  [0xF0#8, 0x80#8, 0xF0#8, 0x80#8, 0x80#8]

end Sys2Proof.Machine
end

