-- ==== Sys2Proof/Machine/Memory.lean ====
section
/-! DEFINITION. `MEM` (R31, R60): 4096 bytes as a list of cells in one canonical form, and the operations on it. -/

namespace Sys2Proof.Machine

/-- `MEM`: the cells that differ from their reset contents, by strictly rising address (`Memory.wf`). -/
abbrev Memory := List Host.Cell

/-- What an unlisted address reads as: the reset contents of the cell, a font byte in `FONT_BASE .. FONT_BASE+79` and
zero elsewhere (R31, R36; entry 10). -/
def Memory.unlisted (a : Nat) : Byte :=
  if fontBase ≤ a then font.getD (a - fontBase) 0#8 else 0#8

/-- The byte at address `a`. The callers check first that `a` is at most 0xFFF, as `MemRead` requires (R11). -/
def Memory.read (m : Memory) (a : Nat) : Byte :=
  match m with
  | [] => Memory.unlisted a
  | c :: rest => if c.1 = a then c.2 else Memory.read rest a

/-- The memory without a cell for `a`. -/
def Memory.erase (m : Memory) (a : Nat) : Memory := m.filter (fun c => c.1 != a)

/-- The memory with the cell `(a, b)` put before the first cell of a larger address. -/
def Memory.insert (m : Memory) (a : Nat) (b : Byte) : Memory :=
  match m with
  | [] => [(a, b)]
  | c :: rest => if a < c.1 then (a, b) :: c :: rest else c :: Memory.insert rest a b

/-- `MemWrite(a, 1, b)` (R11). The callers check first that `a` is at most 0xFFF. Writing what an unlisted address reads
as removes the cell, so that equal memories are equal lists. -/
def Memory.write (m : Memory) (a : Nat) (b : Byte) : Memory :=
  if b = Memory.unlisted a then m.erase a else (m.erase a).insert a b

/-- Bytes written to rising addresses from `a` (R188, R189, R252). -/
def Memory.writeBytes (m : Memory) (a : Nat) (bytes : List Byte) : Memory :=
  match bytes with
  | [] => m
  | b :: rest => Memory.writeBytes (m.write a b) (a + 1) rest

/-- The `n` bytes at rising addresses from `a`. -/
def Memory.readBytes (m : Memory) (a n : Nat) : List Byte :=
  (List.range n).map (fun k => m.read (a + k))

/-- The canonical form: addresses strictly rise, name a cell (R60), and no cell holds what it reads as when unlisted. -/
abbrev Memory.wf (m : Memory) : Prop :=
  m.Pairwise (fun c d => c.1 < d.1) ∧ ∀ c ∈ m, c.1 < Config.memSize ∧ c.2 ≠ Memory.unlisted c.1

end Sys2Proof.Machine
end

