-- ==== Sys2Proof/Machine/State.lean ====
section
/-! DEFINITION. The complete state of the core (R20), its value after reset (R36), and why a step can end otherwise. -/

namespace Sys2Proof.Machine

/-- The four run-time errors (R201), the values `ERR` latches (R33). Raising one is a next state (R206, entry 1). -/
inductive RunError where
  /-- raised by decode and by `SYS` under `SYS_POLICY = fault`: the raw word and the `PC` it was fetched from (R202) -/
  | invalidOpcode (word pc : Word)
  /-- raised by the fetch and by the four accesses through `I`: `PC`, and the lowest address that is no cell (R203) -/
  | outOfBounds (pc addr : Word)
  /-- raised by `CALL` with 16 entries in use (R204) -/
  | stackOverflow (pc : Word) (depth : Nat)
  /-- raised by `RET` with an empty stack (R205) -/
  | stackUnderflow (pc : Word)
  deriving DecidableEq, Repr

/-- `FB`: 32 rows of 64 pixels, `true` is on; row 0 is the top row and column 0 the left one (R28). -/
abbrev Framebuffer := Vector (Vector Bool 64) 32

/-- The state of the core (R20). `SP` is the length of `stack` (R26, D28; entry 11). -/
structure State where
  /-- `MEM` (R31, R60) -/
  mem : Memory
  /-- `V[0]` to `V[15]` (R21); `V[15]` is `VF` (R22) -/
  v : Vector Byte 16
  /-- `I` (R23) -/
  i : Word
  /-- `PC` (R24) -/
  pc : Word
  /-- `STACK[0 .. SP-1]`, oldest first (R26) -/
  stack : List Word
  /-- `DT` (R27) -/
  dt : Byte
  /-- `ST` (R27) -/
  st : Byte
  /-- `FB` (R28) -/
  fb : Framebuffer
  /-- `KEY[0 .. 15]`, `true` is pressed (R29) -/
  key : Vector Bool 16
  /-- `KEDGE` (R30) -/
  kedge : Option Nibble
  /-- `RNG` (R32) -/
  rng : Config.RngState
  /-- `ERR` (R33) -/
  err : Option RunError
  deriving DecidableEq, Repr

/-- No step of this machine ends in a fault: every error of the spec is an entry it describes, the latching of `ERR`,
and is a next state (R206, entry 1). The type has no constructor; safe, since nothing is hidden in a stop. -/
inductive Fault where
  deriving DecidableEq, Repr

/-- Where the model gives no meaning. -/
inductive Refusal where
  /-- raised by `exec`'s arm of an instruction that has no meaning yet, under its mnemonic in the opcode table; safe.
  No arm answers so. -/
  | notModelled (mnemonic : String)
  /-- raised by `Session.perform` for a `load_rom` after the first step or after a successful load: outside the
  behaviours the spec defines (R252, U17; entry 13); safe. No step answers so. -/
  | loadRomOutsideWindow
  deriving DecidableEq, Repr

/-- `SP`, the number of entries in use (R26). -/
def State.sp (s : State) : Nat := s.stack.length

/-- The state `reset(seed)` leaves (R36, R250): it depends on nothing but `seed`. The zeros are the spec's decision D18
(entry 3). -/
def State.resetWith (seed : Seed) : State where
  mem := []
  v := Vector.replicate 16 0#8
  i := 0x0000#16
  pc := 0x0200#16
  stack := []
  dt := 0#8
  st := 0#8
  fb := Vector.replicate 32 (Vector.replicate 64 false)
  key := Vector.replicate 16 false
  kedge := none
  rng := Config.rngSeed seed
  err := none

/-- The machine right after a reset to which the host gives no seed (R250): `DEFAULT_SEED` is a free value (entry 8). -/
def State.reset : State := State.resetWith Config.defaultSeed

end Sys2Proof.Machine
end

