-- ==== Sys2Proof/Machine/Ops.lean ====
section
/-! DEFINITION. The named operations over registers and memory: reading and writing each piece of state, the program
counter, the call stack, the range check of an access, and raising an error (the one exception entry of this machine).
-/

namespace Sys2Proof.Machine

/-- `V[r]` (R11, R21). -/
def State.getV (s : State) (r : Nibble) : Byte := s.v[r.toNat]'r.isLt

/-- `V[r] <- b` (R11, R21). -/
def State.setV (s : State) (r : Nibble) (b : Byte) : State := { s with v := s.v.set r.toNat b r.isLt }

/-- `VF` (R22). -/
def vf : Nibble := 0xF#4

/-- `I <- a` (R23). -/
def State.setI (s : State) (a : Word) : State := { s with i := a }

/-- `PC <- a` (R24). -/
def State.setPc (s : State) (a : Word) : State := { s with pc := a }

/-- The call stack becomes `l` (R26). -/
def State.setStack (s : State) (l : List Word) : State := { s with stack := l }

/-- `DT <- b` (R27). -/
def State.setDt (s : State) (b : Byte) : State := { s with dt := b }

/-- `ST <- b` (R27). -/
def State.setSt (s : State) (b : Byte) : State := { s with st := b }

/-- `FB` becomes `f` (R28). -/
def State.setFb (s : State) (f : Framebuffer) : State := { s with fb := f }

/-- `KEDGE <- e` (R30). -/
def State.setKedge (s : State) (e : Option Nibble) : State := { s with kedge := e }

/-- `RNG <- g` (R32). -/
def State.setRng (s : State) (g : Config.RngState) : State := { s with rng := g }

/-- `ERR <- e` (R33). -/
def State.setErr (s : State) (e : Option RunError) : State := { s with err := e }

/-- `MEM` becomes `m` (R31). -/
def State.setMem (s : State) (m : Memory) : State := { s with mem := m }

/-- `KEY[k]` (R29). -/
def State.keyDown (s : State) (k : Nibble) : Bool := s.key[k.toNat]'k.isLt

/-- `KEY[k] <- b` (R29). -/
def State.setKey (s : State) (k : Nibble) (b : Bool) : State := { s with key := s.key.set k.toNat b k.isLt }

/-- The byte of memory at `a` (R11). -/
def State.byteAt (s : State) (a : Nat) : Byte := s.mem.read a

/-- `pc <- p + 2` (R25). -/
def State.advance (s : State) : State := s.setPc (s.pc + 2#16)

/-- `raise E(info)`: the one exception entry. `ERR` latches the error, everything else, `PC` included, keeps its value,
and control goes nowhere (R206). There is no return from it; only the `reset` transaction leaves the halt (R209). -/
def raise (e : RunError) (s : State) : Host.Outcome State Fault Refusal := .next (s.setErr (some e))

/-- The `addr` payload of `OutOfBounds`: the lowest address of an access from `base` that is not a cell,
`max(base, 0x1000)` (R63, R66). -/
def lowestNonCell (base : Word) : Word := if base.toNat < 0x1000 then 0x1000#16 else base

/-- Whether an access of `n` bytes from `base` leaves the address space: its last address, a natural number, is above
0xFFF; an access of no bytes never does (R63, R66). -/
def leavesMemory (base : Word) (n : Nat) : Bool := 0 < n && 0xFFF < base.toNat + (n - 1)

/-- The range check of the accesses through `I`, before any effect (R66). -/
def checkedAccess (n : Nat) (s : State) (body : State) : Host.Outcome State Fault Refusal :=
  if leavesMemory s.i n then raise (.outOfBounds s.pc (lowestNonCell s.i)) s else .next body

/-- Bytes stored at rising addresses from `I`; the range is checked by the caller (R188, R189). -/
def State.storeAtI (s : State) (bytes : List Byte) : State := s.setMem (s.mem.writeBytes s.i.toNat bytes)

/-- The registers `V[0]` to `V[x]` in order (R189, R190). -/
def regsUpTo (x : Nibble) : List Nibble := (List.range (x.toNat + 1)).map (BitVec.ofNat 4)

/-- `V[r] <- MEM[I + r]` for the listed registers, in order; the range is checked by the caller (R190). -/
def State.loadFromI (s : State) (regs : List Nibble) : State :=
  regs.foldl (fun t r => t.setV r (t.byteAt (t.i.toNat + r.toNat))) s

/-- `STACK[SP] <- a; SP <- SP + 1`; the caller checks `SP < 16` (R26). -/
def State.push (s : State) (a : Word) : State := s.setStack (s.stack ++ [a])

/-- `SP <- SP - 1`, the popped entry vanishes; the caller checks `SP > 0` (R26, D28). -/
def State.pop (s : State) : State := s.setStack s.stack.dropLast

/-- The fetch of R63: two bytes at `PC`, the first the high byte. -/
def fetch (s : State) : Except RunError Word :=
  if leavesMemory s.pc 2 then .error (.outOfBounds s.pc (lowestNonCell s.pc))
  else .ok (wordOfBytes (s.byteAt s.pc.toNat) (s.byteAt (s.pc.toNat + 1)))

/-- Decode of a fetched word; a word of no shape raises `InvalidOpcode` with the word and its address (R200 step 3,
R202). -/
def decodeOrRaise (w pc : Word) : Except RunError Instr :=
  match decode w with
  | .error _ => .error (.invalidOpcode w pc)
  | .ok i => .ok i

/-- Fetch, then decode (R200 steps 2 and 3): the instruction at `PC`, or the error that is raised. -/
def nextInstr (s : State) : Except RunError Instr :=
  match fetch s with
  | .error e => .error e
  | .ok w => decodeOrRaise w s.pc

/-- The state with the instruction of a table word stored where the next fetch reads it, and `ERR` clear, since a halted
machine fetches nothing (R200). Where `PC` is no legal fetch address there is no such place and nothing is stored. -/
def State.placeWord (s : State) (nbits w : Nat) : State :=
  if leavesMemory s.pc 2 then s
  else (s.setMem (s.mem.writeBytes s.pc.toNat (bytesOfWord (tableWord nbits w)))).setErr none

end Sys2Proof.Machine
end

