-- ==== Sys2Proof/Machine/Operands.lean ====
section
/-! DEFINITION. The operand forms: immediates, shift source, key and glyph numbers, pixel coordinates, and the
framebuffer's pixels. -/

namespace Sys2Proof.Machine

/-- `zext_16(nnn)` (R93). -/
def zextAddr (nnn : Addr) : Word := nnn.setWidth 16

/-- `zext_16(b)` (R163, R186). -/
def zextByte (b : Byte) : Word := b.setWidth 16

/-- `zext_8(k)` for a key number (R170). -/
def zextKey (k : Nibble) : Byte := k.setWidth 8

/-- The low 4 bits of a register: the key number of `SKP`/`SKNP` and the digit of `LD F` (R154, R155, R187). -/
def lowNibble (b : Byte) : Nibble := b.extractLsb' 0 4

/-- The source of `SHR`/`SHL` by `Q_SHIFT_SRC` (R128, R130). -/
def shiftSource (q : ShiftSrc) (x y : Nibble) (s : State) : Byte :=
  match q with
  | .vx => s.getV x
  | .vy => s.getV y

/-- `I` after `LD [I], Vx` and `LD Vx, [I]` by `Q_MEM_INC` (R189, R190). -/
def indexAfter (q : MemInc) (i : Word) (x : Nibble) : Word :=
  match q with
  | .none => i
  | .xPlus1 => i + x.setWidth 16 + 1#16
  | .x => i + x.setWidth 16

/-- The address of glyph `d` of a font at `base`, `FONT_BASE + 5 * d` (R187). -/
def glyphAddrFrom (base : Nat) (d : Nibble) : Word := BitVec.ofNat 16 (base + 5 * d.toNat)

/-- The decimal digits of a byte, hundreds first (R188). -/
def bcdDigits (b : Byte) : List Byte :=
  [BitVec.ofNat 8 (b.toNat / 100), BitVec.ofNat 8 (b.toNat / 10 % 10), BitVec.ofNat 8 (b.toNat % 10)]

/-- The columns of the framebuffer. -/
abbrev Column := Fin 64

/-- The rows of the framebuffer. -/
abbrev Row := Fin 32

/-- `FB[y][x]` (R28). -/
def Framebuffer.pixel (f : Framebuffer) (x : Column) (y : Row) : Bool := (f[y.val])[x.val]

/-- `FB[y][x] <- FB[y][x] XOR 1` (R140). -/
def Framebuffer.toggle (f : Framebuffer) (x : Column) (y : Row) : Framebuffer :=
  f.set y.val ((f[y.val]).set x.val (!(f[y.val])[x.val]))

/-- All pixels off (R141). -/
def Framebuffer.clear : Framebuffer := Vector.replicate 32 (Vector.replicate 64 false)

/-- `(x0 + c) mod 64` of the natural-number sum (R142). -/
def columnOf (x0 : Byte) (c : Nat) : Column := ⟨(x0.toNat + c) % 64, Nat.mod_lt _ (by decide)⟩

/-- `(y0 + r) mod 32` of the natural-number sum (R142). -/
def rowOf (y0 : Byte) (r : Nat) : Row := ⟨(y0.toNat + r) % 32, Nat.mod_lt _ (by decide)⟩

/-- Column `c` of a sprite row is bit `7 - c` of its byte: bit 7 is the leftmost pixel (R142). -/
def spriteBit (b : Byte) (c : Nat) : Bool := b.getLsbD (7 - c)

end Sys2Proof.Machine
end

