-- ==== Sys2Proof/Machine/Flags.lean ====
section
/-! DEFINITION. What the flag-writing instructions put in `VF` (R22): exactly 0x00 or 0x01. -/

namespace Sys2Proof.Machine

/-- A flag as the byte `VF` holds (R22). -/
def flagByte (c : Bool) : Byte := if c then 1#8 else 0#8

/-- Carry: the unbounded sum exceeds 255 (R126, R131). -/
def carryFlag (a b : Byte) : Byte := flagByte (255 < a.toNat + b.toNat)

/-- Not-borrow: minuend >= subtrahend, equality included (R127, R129, R131). -/
def notBorrowFlag (minuend subtrahend : Byte) : Byte := flagByte (subtrahend.toNat ≤ minuend.toNat)

/-- The bit `SHR` shifts out, the source's bit 0 (R128). -/
def shrFlag (b : Byte) : Byte := flagByte (b.getLsbD 0)

/-- The bit `SHL` shifts out, the source's bit 7 (R130). -/
def shlFlag (b : Byte) : Byte := flagByte (b.getLsbD 7)

/-- The result register first, then `VF`, so that the flag is what `VF` holds when `x = 15`; then `pc <- p + 2`
(R132). -/
def writeWithFlag (x : Nibble) (result flag : Byte) (s : State) : Host.Outcome State Fault Refusal :=
  .next ((s.setV x result).setV vf flag).advance

end Sys2Proof.Machine
end

