-- ==== Sys2Proof/Machine/Arith.lean ====
section
/-! DEFINITION. Register load, logic and arithmetic (spec file 40, R120 to R133). -/

namespace Sys2Proof.Machine

/-- A result to `V[x]` with no flag, then `pc <- p + 2` (R133). -/
def writeReg (x : Nibble) (result : Byte) (s : State) : Host.Outcome State Fault Refusal :=
  .next (s.setV x result).advance

/-- `LD Vx, kk` (R120). -/
def execLdImm (x : Nibble) (kk : Byte) (s : State) : Host.Outcome State Fault Refusal := writeReg x kk s

/-- `ADD Vx, kk`: modulo 256, `VF` not written (R121). -/
def execAddImm (x : Nibble) (kk : Byte) (s : State) : Host.Outcome State Fault Refusal :=
  writeReg x (s.getV x + kk) s

/-- `LD Vx, Vy` (R122). -/
def execLdReg (x y : Nibble) (s : State) : Host.Outcome State Fault Refusal := writeReg x (s.getV y) s

/-- `OR Vx, Vy`: `VF` unchanged (R123). -/
def execOrReg (x y : Nibble) (s : State) : Host.Outcome State Fault Refusal := writeReg x (s.getV x ||| s.getV y) s

/-- `AND Vx, Vy`: `VF` unchanged (R124). -/
def execAndReg (x y : Nibble) (s : State) : Host.Outcome State Fault Refusal := writeReg x (s.getV x &&& s.getV y) s

/-- `XOR Vx, Vy`: `VF` unchanged (R125). -/
def execXorReg (x y : Nibble) (s : State) : Host.Outcome State Fault Refusal := writeReg x (s.getV x ^^^ s.getV y) s

/-- `ADD Vx, Vy`: the sum modulo 256, `VF` the carry (R126). -/
def execAddReg (x y : Nibble) (s : State) : Host.Outcome State Fault Refusal :=
  writeWithFlag x (s.getV x + s.getV y) (carryFlag (s.getV x) (s.getV y)) s

/-- `SUB Vx, Vy`: `Vx - Vy` modulo 256, `VF` not-borrow (R127). -/
def execSubReg (x y : Nibble) (s : State) : Host.Outcome State Fault Refusal :=
  writeWithFlag x (s.getV x - s.getV y) (notBorrowFlag (s.getV x) (s.getV y)) s

/-- `SUBN Vx, Vy`: `Vy - Vx` modulo 256, `VF` not-borrow with `Vy` the minuend (R129). -/
def execSubn (x y : Nibble) (s : State) : Host.Outcome State Fault Refusal :=
  writeWithFlag x (s.getV y - s.getV x) (notBorrowFlag (s.getV y) (s.getV x)) s

/-- `SHR` for either value of `Q_SHIFT_SRC` (R128). -/
def shrBy (q : ShiftSrc) (x y : Nibble) (s : State) : Host.Outcome State Fault Refusal :=
  writeWithFlag x (shiftSource q x y s >>> 1) (shrFlag (shiftSource q x y s)) s

/-- `SHL` for either value of `Q_SHIFT_SRC` (R130). -/
def shlBy (q : ShiftSrc) (x y : Nibble) (s : State) : Host.Outcome State Fault Refusal :=
  writeWithFlag x (shiftSource q x y s <<< 1) (shlFlag (shiftSource q x y s)) s

/-- `SHR Vx {, Vy}` (R128). -/
def execShr (x y : Nibble) (s : State) : Host.Outcome State Fault Refusal := shrBy shiftSrc x y s

/-- `SHL Vx {, Vy}` (R130). -/
def execShl (x y : Nibble) (s : State) : Host.Outcome State Fault Refusal := shlBy shiftSrc x y s

end Sys2Proof.Machine
end

