-- ==== Sys2Proof/Machine/Control.lean ====
section
/-! DEFINITION. Jump, call, return and SYS (spec file 43, R160 to R165). -/

namespace Sys2Proof.Machine

/-- `CALL nnn`: pushes the address of the `CALL` itself (R160, D16). -/
def execCall (nnn : Addr) (s : State) : Host.Outcome State Fault Refusal :=
  if Config.stackDepth ≤ s.sp then raise (.stackOverflow s.pc Config.stackDepth) s
  else .next ((s.push s.pc).setPc (zextAddr nnn))

/-- `RET`: the popped entry plus 2 (R161). -/
def execRet (s : State) : Host.Outcome State Fault Refusal :=
  match s.stack.getLast? with
  | none => raise (.stackUnderflow s.pc) s
  | some r => .next (s.pop.setPc (r + 2#16))

/-- `JP nnn` (R162). -/
def execJp (nnn : Addr) (s : State) : Host.Outcome State Fault Refusal := .next (s.setPc (zextAddr nnn))

/-- `JP V0, nnn`: always `V[0]` (R163). -/
def execJpV0 (nnn : Addr) (s : State) : Host.Outcome State Fault Refusal :=
  .next (s.setPc (zextAddr nnn + zextByte (s.getV 0#4)))

/-- `SYS nnn` for either value of `SYS_POLICY` (R164). -/
def sysBy (p : SysPolicy) (nnn : Addr) (s : State) : Host.Outcome State Fault Refusal :=
  match p with
  | .fault => raise (.invalidOpcode (wordNNN 0x0#4 nnn) s.pc) s
  | .nop => .next s.advance

/-- `SYS nnn` (R164). -/
def execSys (nnn : Addr) (s : State) : Host.Outcome State Fault Refusal := sysBy sysPolicy nnn s

end Sys2Proof.Machine
end

