-- ==== Sys2Proof/Machine/Display.lean ====
section
/-! DEFINITION. Display (spec file 41, R140 to R143). -/

namespace Sys2Proof.Machine

/-- One sprite pixel of `DRW`: a sprite bit of 1 notes a collision if the pixel is lit and flips it; a sprite bit of 0
does nothing (R140). -/
def drawPixel (on : Bool) (x : Column) (y : Row) (acc : Framebuffer × Bool) : Framebuffer × Bool :=
  if on then (acc.1.toggle x y, acc.2 || acc.1.pixel x y) else acc

/-- One sprite row: columns 0 to 7 in order (R140). -/
def drawRow (x0 : Byte) (y : Row) (b : Byte) (acc : Framebuffer × Bool) : Framebuffer × Bool :=
  (List.range 8).foldl (fun a c => drawPixel (spriteBit b c) (columnOf x0 c) y a) acc

/-- The sprite rows in order, the first of them row `r` (R140). -/
def drawRows (x0 y0 : Byte) (r : Nat) (rows : List Byte) (acc : Framebuffer × Bool) : Framebuffer × Bool :=
  match rows with
  | [] => acc
  | b :: rest => drawRows x0 y0 (r + 1) rest (drawRow x0 (rowOf y0 r) b acc)

/-- The framebuffer and the collision bit after the sprite `MEM[I .. I+n-1]` is drawn at `(V[x], V[y])` (R140). -/
def drawSprite (x y n : Nibble) (s : State) : Framebuffer × Bool :=
  drawRows (s.getV x) (s.getV y) 0 (s.mem.readBytes s.i.toNat n.toNat) (s.fb, false)

/-- `DRW Vx, Vy, n` (R140). -/
def execDrw (x y n : Nibble) (s : State) : Host.Outcome State Fault Refusal :=
  checkedAccess n.toNat s
    (((s.setFb (drawSprite x y n s).1).setV vf (flagByte (drawSprite x y n s).2)).advance)

/-- `CLS` (R141). -/
def execCls (s : State) : Host.Outcome State Fault Refusal := .next (s.setFb Framebuffer.clear).advance

end Sys2Proof.Machine
end

