-- ==== Sys2Proof/Machine/Index.lean ====
section
/-! DEFINITION. The index register and memory (spec file 46, R185 to R191). -/

namespace Sys2Proof.Machine

/-- `LD I, nnn` (R185). -/
def execLdI (nnn : Addr) (s : State) : Host.Outcome State Fault Refusal := .next (s.setI (zextAddr nnn)).advance

/-- `ADD I, Vx`: modulo 2^16, `VF` not written (R186). -/
def execAddI (x : Nibble) (s : State) : Host.Outcome State Fault Refusal :=
  .next (s.setI (s.i + zextByte (s.getV x))).advance

/-- `LD F, Vx` for any `FONT_BASE` (R187). -/
def ldFBy (base : Nat) (x : Nibble) (s : State) : Host.Outcome State Fault Refusal :=
  .next (s.setI (glyphAddrFrom base (lowNibble (s.getV x)))).advance

/-- `LD F, Vx` (R187). -/
def execLdF (x : Nibble) (s : State) : Host.Outcome State Fault Refusal := ldFBy fontBase x s

/-- `LD B, Vx` (R188). -/
def execLdB (x : Nibble) (s : State) : Host.Outcome State Fault Refusal :=
  checkedAccess 3 s (s.storeAtI (bcdDigits (s.getV x))).advance

/-- `LD [I], Vx` for every value of `Q_MEM_INC` (R189). -/
def storeRegsBy (q : MemInc) (x : Nibble) (s : State) : Host.Outcome State Fault Refusal :=
  checkedAccess (x.toNat + 1) s
    ((s.storeAtI ((regsUpTo x).map s.getV)).setI (indexAfter q s.i x)).advance

/-- `LD Vx, [I]` for every value of `Q_MEM_INC` (R190). -/
def loadRegsBy (q : MemInc) (x : Nibble) (s : State) : Host.Outcome State Fault Refusal :=
  checkedAccess (x.toNat + 1) s
    ((s.loadFromI (regsUpTo x)).setI (indexAfter q s.i x)).advance

/-- `LD [I], Vx` (R189). -/
def execStoreRegs (x : Nibble) (s : State) : Host.Outcome State Fault Refusal := storeRegsBy memInc x s

/-- `LD Vx, [I]` (R190). -/
def execLoadRegs (x : Nibble) (s : State) : Host.Outcome State Fault Refusal := loadRegsBy memInc x s

end Sys2Proof.Machine
end

