-- ==== Sys2Proof/Machine/KeyTimer.lean ====
section
/-! DEFINITION. Wait for key and timer access (spec file 44, R170 to R173). -/

namespace Sys2Proof.Machine

/-- `LD Vx, K`: with no latched edge nothing changes at all (the step's status is then `WaitingForKey`,
`stepTransaction`); otherwise the key number goes to `V[x]` and the edge is consumed (R170). -/
def execLdVxK (x : Nibble) (s : State) : Host.Outcome State Fault Refusal :=
  match s.kedge with
  | none => .next s
  | some k => .next ((s.setV x (zextKey k)).setKedge none).advance

/-- `LD Vx, DT` (R171). -/
def execLdVxDt (x : Nibble) (s : State) : Host.Outcome State Fault Refusal := .next (s.setV x s.dt).advance

/-- `LD DT, Vx` (R172). -/
def execLdDtVx (x : Nibble) (s : State) : Host.Outcome State Fault Refusal := .next (s.setDt (s.getV x)).advance

/-- `LD ST, Vx` (R173). -/
def execLdStVx (x : Nibble) (s : State) : Host.Outcome State Fault Refusal := .next (s.setSt (s.getV x)).advance

end Sys2Proof.Machine
end

