-- ==== Sys2Proof/Machine/Random.lean ====
section
/-! DEFINITION. The random byte (spec file 45, R180 to R182), for any generator, and the two generators of the model:
the open one of Config and the reference instantiation. -/

namespace Sys2Proof.Machine

/-- What makes a generator on the model's coding of `RNG_STATE`: `rng_seed`, `rng_next` and `DEFAULT_SEED` (R181). -/
structure Generator where
  /-- `rng_seed` -/
  seed : Seed → Config.RngState
  /-- `rng_next` -/
  next : Config.RngState → Byte × Config.RngState
  /-- `DEFAULT_SEED` -/
  defaultSeed : Seed

/-- The core's generator, of which nothing is known but that it is one (R181; entry 8). -/
def openGenerator : Generator where
  seed := Config.rngSeed
  next := Config.rngNext
  defaultSeed := Config.defaultSeed

/-- `RND Vx, kk` for any generator: it advances exactly once, whatever the mask (R180). -/
def rndBy (next : Config.RngState → Byte × Config.RngState) (x : Nibble) (kk : Byte) (s : State) :
    Host.Outcome State Fault Refusal :=
  .next ((s.setRng (next s.rng).2).setV x ((next s.rng).1 &&& kk)).advance

/-- `RND Vx, kk` with the open generator of Config (R180, R181; entry 8). -/
def execRnd (x : Nibble) (kk : Byte) (s : State) : Host.Outcome State Fault Refusal := rndBy Config.rngNext x kk s

/-- `rng_seed` of the reference instantiation `RNG_REF` (R182; entry 9). -/
def rngRefSeed (seed : Seed) : BitVec 32 :=
  let t := seed.extractLsb' 0 32 ^^^ seed.extractLsb' 32 32
  if t = 0#32 then 0x2545F491#32 else t

/-- `rng_next` of `RNG_REF`: xorshift with 13, 17, 5 (R182; entry 9). -/
def rngRefNext (g : BitVec 32) : Byte × BitVec 32 :=
  let x1 := g ^^^ (g <<< 13)
  let x2 := x1 ^^^ (x1 >>> 17)
  let x3 := x2 ^^^ (x2 <<< 5)
  (x3.extractLsb' 0 8, x3)

/-- `RNG_REF`'s `rng_next` on the model's coding of generator states (R182; entry 9). -/
def rngRefNextNat (g : Config.RngState) : Byte × Config.RngState :=
  ((rngRefNext (BitVec.ofNat 32 g)).1, (rngRefNext (BitVec.ofNat 32 g)).2.toNat)

/-- `RNG_REF`, its `DEFAULT_SEED` 0 included (R182; entry 9). It is a generator to run under on demand (`execUnder`,
Machine/Parameters.lean), never the core's. -/
def rngRef : Generator where
  seed := fun sd => (rngRefSeed sd).toNat
  next := rngRefNextNat
  defaultSeed := 0#64

end Sys2Proof.Machine
end

