-- ==== Sys2Proof/Machine/Skip.lean ====
section
/-! DEFINITION. Skips (spec file 42, R150 to R156). -/

namespace Sys2Proof.Machine

/-- `pc <- p + 4` if `cond` else `p + 2`; nothing else changes (R156). -/
def skipIf (cond : Bool) (s : State) : Host.Outcome State Fault Refusal :=
  .next (s.setPc (if cond then s.pc + 4#16 else s.pc + 2#16))

/-- `SE Vx, kk` (R150). -/
def execSeImm (x : Nibble) (kk : Byte) (s : State) : Host.Outcome State Fault Refusal := skipIf (s.getV x == kk) s

/-- `SNE Vx, kk` (R151). -/
def execSneImm (x : Nibble) (kk : Byte) (s : State) : Host.Outcome State Fault Refusal := skipIf (s.getV x != kk) s

/-- `SE Vx, Vy` (R152). -/
def execSeReg (x y : Nibble) (s : State) : Host.Outcome State Fault Refusal := skipIf (s.getV x == s.getV y) s

/-- `SNE Vx, Vy` (R153). -/
def execSneReg (x y : Nibble) (s : State) : Host.Outcome State Fault Refusal := skipIf (s.getV x != s.getV y) s

/-- `SKP Vx`: the level of the key, `KEDGE` neither read nor consumed (R154). -/
def execSkp (x : Nibble) (s : State) : Host.Outcome State Fault Refusal :=
  skipIf (s.keyDown (lowNibble (s.getV x))) s

/-- `SKNP Vx` (R155). -/
def execSknp (x : Nibble) (s : State) : Host.Outcome State Fault Refusal :=
  skipIf (!s.keyDown (lowNibble (s.getV x))) s

end Sys2Proof.Machine
end

