-- ==== Sys2Proof/Machine/Step.lean ====
section
/-! DEFINITION. `step()` (R200). -/

namespace Sys2Proof.Machine

/-- One call of `step()`: a latched error stops everything (R206); otherwise fetch and decode, which may raise, and then
execute. The status the call returns is in `stepTransaction` (Machine/Transactions.lean). -/
def step (s : State) : Host.Outcome State Fault Refusal :=
  match s.err with
  | some _ => .next s
  | none =>
    match nextInstr s with
    | .error e => raise e s
    | .ok i => exec i s

/-- `s` with the instruction of a table word stored where `step` fetches its next instruction (entry 14). -/
def State.withFetchWord (s : State) (nbits w : Nat) : State := s.placeWord nbits w

end Sys2Proof.Machine
end

