-- ==== Sys2Proof/Machine/Transactions.lean ====
section
/-! DEFINITION. The transactions beside `step()` (R9, R232): timer ticks, key events, reset, ROM load; the status a step
returns (R12); and the outputs (R35). -/

namespace Sys2Proof.Machine

/-- Decrement toward zero, clamped at zero (R27). -/
def countDown (b : Byte) : Byte := if b = 0#8 then 0#8 else b - 1#8

/-- `tick_timers()`: both timers, independently; nothing else; accepted in every state (R220). -/
def tickTimers (s : State) : State := (s.setDt (countDown s.dt)).setSt (countDown s.st)

/-- `key_set(k)`: a released key becomes pressed and its edge is latched, over an unconsumed one; a key already down
makes no edge (R225). -/
def keySet (k : Nibble) (s : State) : State :=
  if s.keyDown k then s else (s.setKey k true).setKedge (some k)

/-- `key_clear(k)`: `KEDGE` is not changed (R226). -/
def keyClear (k : Nibble) (s : State) : State := s.setKey k false

/-- `reset(seed)`, with `DEFAULT_SEED` where the host gives no seed (R250). -/
def resetBy (seed : Option Seed) : State :=
  match seed with
  | some sd => State.resetWith sd
  | none => State.reset

/-- What a transaction returns (R12, R201, R232). -/
inductive Result where
  /-- the transaction returns nothing -/
  | none
  /-- `Ok` -/
  | ok
  /-- `WaitingForKey` (R170) -/
  | waitingForKey
  /-- `Err(e)` with a run-time error (R201) -/
  | err (e : RunError)
  /-- `Err(RomTooLarge(len))`: returned by `load_rom` only and never latched (R207) -/
  | romTooLarge (len : Nat)
  deriving DecidableEq, Repr

/-- `load_rom(bytes)`: verbatim from 0x200, or an error and no change when the image does not fit (R76, R252). -/
def loadRom (bytes : List Byte) (s : State) : State × Result :=
  if Config.romMax < bytes.length then (s, .romTooLarge bytes.length)
  else (s.setMem (s.mem.writeBytes Config.progBase bytes), .ok)

/-- Whether the machine stands at `LD Vx, K` with no latched edge, so that a step makes no progress (R170, R231). -/
def waitsForKey (s : State) : Bool :=
  match s.err, nextInstr s, s.kedge with
  | .none, .ok (.ldVxK _), .none => true
  | _, _, _ => false

/-- What `step()` returns (R12, R200) where `o` is what the step from `s` answers: the latched or raised error,
`WaitingForKey`, or `Ok`. -/
def withStatus (s : State) (o : Host.Outcome State Fault Refusal) : Host.Outcome (State × Result) Fault Refusal :=
  match o with
  | .next t =>
    match t.err with
    | some e => .next (t, .err e)
    | .none => .next (t, if waitsForKey s then .waitingForKey else .ok)
  | .fault r => .fault r
  | .refused r => .refused r

/-- `step()` with its status (R12, R200). -/
def stepTransaction (s : State) : Host.Outcome (State × Result) Fault Refusal := withStatus s (step s)

/-- `fb_out` (R35): the whole grid. -/
def fbOut (s : State) : Framebuffer := s.fb

/-- `sound_active` (R35, R221). -/
def soundActive (s : State) : Bool := s.st != 0#8

/-- The register snapshot (R35; its members are decision D29). -/
structure Snapshot where
  v : Vector Byte 16
  i : Word
  pc : Word
  sp : Nat
  dt : Byte
  st : Byte
  deriving DecidableEq, Repr

/-- `snapshot` (R35). -/
def snapshot (s : State) : Snapshot where
  v := s.v
  i := s.i
  pc := s.pc
  sp := s.sp
  dt := s.dt
  st := s.st

/-- The host's and the other agents' transactions on a core (R232). -/
inductive Transaction where
  | reset (seed : Option Seed)
  | loadRom (bytes : List Byte)
  | step
  | tickTimers
  | keySet (k : Nibble)
  | keyClear (k : Nibble)
  deriving DecidableEq, Repr

/-- A core and whether `load_rom` is still legal on it: no step since the last reset and no successful load (R252). -/
structure Session where
  machine : State
  loadWindow : Bool
  deriving DecidableEq, Repr

/-- One transaction (R232), with the reset `boot` and the step `stp`, the two that depend on the generator. A `load_rom`
outside its window is outside the behaviours the spec defines (U17; entry 13) and is refused by name. -/
def Session.performWith (boot : Option Seed → State) (stp : State → Host.Outcome (State × Result) Fault Refusal)
    (c : Session) (t : Transaction) : Host.Outcome (Session × Result) Fault Refusal :=
  match t with
  | .reset seed => .next (⟨boot seed, true⟩, .none)
  | .loadRom bytes =>
    if c.loadWindow then
      .next (⟨(loadRom bytes c.machine).1, (loadRom bytes c.machine).2 != .ok⟩, (loadRom bytes c.machine).2)
    else .refused .loadRomOutsideWindow
  | .step =>
    match stp c.machine with
    | .next r => .next (⟨r.1, false⟩, r.2)
    | .fault r => .fault r
    | .refused r => .refused r
  | .tickTimers => .next (⟨tickTimers c.machine, c.loadWindow⟩, .none)
  | .keySet k => .next (⟨keySet k c.machine, c.loadWindow⟩, .none)
  | .keyClear k => .next (⟨keyClear k c.machine, c.loadWindow⟩, .none)

/-- One transaction on the core (R232). -/
def Session.perform (c : Session) (t : Transaction) : Host.Outcome (Session × Result) Fault Refusal :=
  Session.performWith resetBy stepTransaction c t

/-- The transactions of a list in order (R9, R254, R260), each by `perf`, with their results. -/
def performList (perf : Session → Transaction → Host.Outcome (Session × Result) Fault Refusal) (c : Session)
    (ts : List Transaction) : Host.Outcome (Session × List Result) Fault Refusal :=
  match ts with
  | [] => .next (c, [])
  | t :: rest =>
    match perf c t with
    | .next r =>
      match performList perf r.1 rest with
      | .next q => .next (q.1, r.2 :: q.2)
      | .fault e => .fault e
      | .refused e => .refused e
    | .fault e => .fault e
    | .refused e => .refused e

/-- The transactions of a list in order on the core. -/
def Session.performAll (c : Session) (ts : List Transaction) : Host.Outcome (Session × List Result) Fault Refusal :=
  performList Session.perform c ts

end Sys2Proof.Machine
end

