-- ==== Sys2Proof/Machine/Parameters.lean ====
section
/-! DEFINITION. The machine under parameters that are named (R7, R8): the font and its place, the generator, the policy
for `SYS`, the quirks. Under `decided` it is the core itself (Laws/Transactions.lean); with the generator `rngRef` it is
the executable machine of R182. -/

namespace Sys2Proof.Machine

/-- The parameters a model takes as arguments (R7, R8). `SEED` is the argument of a reset. -/
structure Parameters where
  /-- `FONT_BASE` -/
  fontBase : Nat
  /-- `FONT` -/
  font : Vector Byte 80
  /-- `RNG_STATE`, `rng_seed`, `rng_next`, `DEFAULT_SEED` -/
  generator : Generator
  /-- `SYS_POLICY` -/
  sysPolicy : SysPolicy
  /-- `Q_SHIFT_SRC` -/
  shiftSrc : ShiftSrc
  /-- `Q_MEM_INC` -/
  memInc : MemInc

/-- The constraint on the parameters, `FONT_BASE + 80 <= 0x200`: the font lies below the program (R7). -/
abbrev Parameters.wf (p : Parameters) : Prop := p.fontBase + 80 ≤ Config.progBase

/-- The decided values, the generator open: the parameters of the core (R7, R8; entries 4 to 8). -/
def decided : Parameters where
  fontBase := Sys2Proof.Machine.fontBase
  font := ⟨⟨Sys2Proof.Machine.font⟩, rfl⟩
  generator := openGenerator
  sysPolicy := Sys2Proof.Machine.sysPolicy
  shiftSrc := Sys2Proof.Machine.shiftSrc
  memInc := Sys2Proof.Machine.memInc

/-- `MEM` after reset with a font at `base`: the font's bytes there, and 0 in every other cell (R31, R36). The decided
font is first overwritten with zeros, since it is what the cells of the list form differ from (entry 10). -/
def fontMemory (base : Nat) (glyphs : Vector Byte 80) : Memory :=
  (Memory.writeBytes [] Sys2Proof.Machine.fontBase (List.replicate 80 0#8)).writeBytes base glyphs.toList

/-- `reset(seed)` under parameters, with their `DEFAULT_SEED` where the host gives no seed (R36, R250, R182). -/
def resetUnder (p : Parameters) (seed : Option Seed) : State :=
  ((State.resetWith (seed.getD p.generator.defaultSeed)).setMem (fontMemory p.fontBase p.font)).setRng
    (p.generator.seed (seed.getD p.generator.defaultSeed))

/-- One instruction under parameters. The seven named here are all that depend on one (R128, R130, R164, R180, R187,
R189, R190); every other is the core's. -/
def execUnder (p : Parameters) (i : Instr) (s : State) : Host.Outcome State Fault Refusal :=
  match i with
  | .sys nnn => sysBy p.sysPolicy nnn s
  | .shr x y => shrBy p.shiftSrc x y s
  | .shl x y => shlBy p.shiftSrc x y s
  | .rnd x kk => rndBy p.generator.next x kk s
  | .ldF x => ldFBy p.fontBase x s
  | .storeRegs x => storeRegsBy p.memInc x s
  | .loadRegs x => loadRegsBy p.memInc x s
  | _ => exec i s

/-- One call of `step()` under parameters (R200). -/
def stepUnder (p : Parameters) (s : State) : Host.Outcome State Fault Refusal :=
  match s.err with
  | some _ => .next s
  | none =>
    match nextInstr s with
    | .error e => raise e s
    | .ok i => execUnder p i s

/-- `step()` under parameters, with its status (R12, R200). -/
def stepTransactionUnder (p : Parameters) (s : State) : Host.Outcome (State × Result) Fault Refusal :=
  withStatus s (stepUnder p s)

/-- One transaction under parameters (R232). -/
def Session.performUnder (p : Parameters) (c : Session) (t : Transaction) :
    Host.Outcome (Session × Result) Fault Refusal :=
  Session.performWith (resetUnder p) (stepTransactionUnder p) c t

/-- The transactions of a list in order under parameters. -/
def Session.performAllUnder (p : Parameters) (c : Session) (ts : List Transaction) :
    Host.Outcome (Session × List Result) Fault Refusal :=
  performList (Session.performUnder p) c ts

end Sys2Proof.Machine
end

