-- ==== Sys2Proof/Safety.lean ====
section
/-! DEFINITION. The terms claims are stated in: the invariant of the machine, and what an instruction leaves alone. -/

namespace Sys2Proof.Machine

/-- The parts of the state a frame speaks about (R20). -/
inductive Field where
  | mem
  | v
  | i
  | pc
  | stack
  | dt
  | st
  | fb
  | key
  | kedge
  | rng
  | err
  deriving DecidableEq, Repr

/-- Two states hold the same in one part: memory by the byte every address reads as, registers, keys and pixels one by
one. -/
def Field.Same (f : Field) (s t : State) : Prop :=
  match f with
  | .mem => ∀ a : Nat, t.byteAt a = s.byteAt a
  | .v => ∀ r : Nibble, t.getV r = s.getV r
  | .i => t.i = s.i
  | .pc => t.pc = s.pc
  | .stack => t.stack = s.stack
  | .dt => t.dt = s.dt
  | .st => t.st = s.st
  | .fb => ∀ (x : Column) (y : Row), t.fb.pixel x y = s.fb.pixel x y
  | .key => ∀ k : Nibble, t.keyDown k = s.keyDown k
  | .kedge => t.kedge = s.kedge
  | .rng => t.rng = s.rng
  | .err => t.err = s.err

/-- `t` holds what `s` holds in every part but those listed. -/
def SameBut (changed : List Field) (s t : State) : Prop := ∀ f : Field, f ∉ changed → f.Same s t

/-- What every reachable state satisfies: memory in its canonical form (the model's own, entry 10; R60 for the addresses),
at most 16 stack entries (R26), each at most 0xFFE, as the address of a fetched instruction is (R161), and `PC` at most
0x10FE (R25). -/
def State.Inv (s : State) : Prop :=
  s.mem.wf ∧ s.stack.length ≤ 16 ∧ (∀ r ∈ s.stack, r.toNat ≤ 0xFFE) ∧ s.pc.toNat ≤ 0x10FE

/-- A safe state: no error is latched (R206, R255). -/
def State.Running (s : State) : Prop := s.err = none

end Sys2Proof.Machine
end

