-- ==== Sys2Proof/Certificates/Slice0/Obligations.lean ====
section
/-! DEFINITION. The statements for the provers. A docstring names the rule of spec/ its statement formalises; where it
rests on a point the spec marks as its own decision D<n> or as derived, it says so and the statement's basis is
'derived'. -/

namespace Sys2Proof.Claims

open Sys2Proof Sys2Proof.Machine

/-- The mask and match columns of R95's table, in its order. -/
def shapeTable : List (Word × Word) :=
  [(0xFFFF#16, 0x00E0#16), (0xFFFF#16, 0x00EE#16), (0xF000#16, 0x0000#16), (0xF000#16, 0x1000#16),
   (0xF000#16, 0x2000#16), (0xF000#16, 0x3000#16), (0xF000#16, 0x4000#16), (0xF00F#16, 0x5000#16),
   (0xF000#16, 0x6000#16), (0xF000#16, 0x7000#16), (0xF00F#16, 0x8000#16), (0xF00F#16, 0x8001#16)] ++
  [(0xF00F#16, 0x8002#16), (0xF00F#16, 0x8003#16), (0xF00F#16, 0x8004#16), (0xF00F#16, 0x8005#16),
   (0xF00F#16, 0x8006#16), (0xF00F#16, 0x8007#16), (0xF00F#16, 0x800E#16), (0xF00F#16, 0x9000#16),
   (0xF000#16, 0xA000#16), (0xF000#16, 0xB000#16), (0xF000#16, 0xC000#16), (0xF000#16, 0xD000#16)] ++
  [(0xF0FF#16, 0xE09E#16), (0xF0FF#16, 0xE0A1#16), (0xF0FF#16, 0xF007#16), (0xF0FF#16, 0xF00A#16),
   (0xF0FF#16, 0xF015#16), (0xF0FF#16, 0xF018#16), (0xF0FF#16, 0xF01E#16), (0xF0FF#16, 0xF029#16),
   (0xF0FF#16, 0xF033#16), (0xF0FF#16, 0xF055#16), (0xF0FF#16, 0xF065#16)]

/-- The row of R95's table that an instruction is a shape of, counted from 0. -/
def shapeRow (i : Instr) : Nat :=
  match i with
  | .cls => 0
  | .ret => 1
  | .sys _ => 2
  | .jp _ => 3
  | .call _ => 4
  | .seImm _ _ => 5
  | .sneImm _ _ => 6
  | .seReg _ _ => 7
  | .ldImm _ _ => 8
  | .addImm _ _ => 9
  | .ldReg _ _ => 10
  | .orReg _ _ => 11
  | .andReg _ _ => 12
  | .xorReg _ _ => 13
  | .addReg _ _ => 14
  | .subReg _ _ => 15
  | .shr _ _ => 16
  | .subn _ _ => 17
  | .shl _ _ => 18
  | .sneReg _ _ => 19
  | .ldI _ => 20
  | .jpV0 _ => 21
  | .rnd _ _ => 22
  | .drw _ _ _ => 23
  | .skp _ => 24
  | .sknp _ => 25
  | .ldVxDt _ => 26
  | .ldVxK _ => 27
  | .ldDtVx _ => 28
  | .ldStVx _ => 29
  | .addI _ => 30
  | .ldF _ => 31
  | .ldB _ => 32
  | .storeRegs _ => 33
  | .loadRegs _ => 34

/-- The illegal words of R98 that are illegal under either value of `SYS_POLICY`, in the digits of the word. -/
def IllegalWord (w : Word) : Prop :=
  (w.toNat / 4096 = 0x5 ∧ w.toNat % 16 ≠ 0) ∨
  (w.toNat / 4096 = 0x8 ∧ w.toNat % 16 ∈ [0x8, 0x9, 0xA, 0xB, 0xC, 0xD, 0xF]) ∨
  (w.toNat / 4096 = 0x9 ∧ w.toNat % 16 ≠ 0) ∨
  (w.toNat / 4096 = 0xE ∧ w.toNat % 256 ∉ [0x9E, 0xA1]) ∨
  (w.toNat / 4096 = 0xF ∧ w.toNat % 256 ∉ [0x07, 0x0A, 0x15, 0x18, 0x1E, 0x29, 0x33, 0x55, 0x65])

/-- The `addr` payload of `OutOfBounds`, `max(base, 0x1000)` (R63, R66). -/
def payloadAddr (base : Word) : Word := if base.toNat < 0x1000 then 0x1000#16 else base

/-- The sprite of `Dxyn` has a 1 bit that lands on column `X`, row `Y` (R142). -/
def Covers (x y n : Nibble) (s : State) (X : Column) (Y : Row) : Prop :=
  ∃ r c : Nat, r < n.toNat ∧ c < 8 ∧ (s.byteAt (s.i.toNat + r)).getLsbD (7 - c) = true ∧
    X.val = ((s.getV x).toNat + c) % 64 ∧ Y.val = ((s.getV y).toNat + r) % 32

/-- Instructions executed one after the other, with no fetch between them. -/
def runAll (l : List Instr) (s : State) : Host.Outcome State Fault Refusal :=
  match l with
  | [] => .next s
  | i :: rest =>
    match exec i s with
    | .next t => runAll rest t
    | .fault r => .fault r
    | .refused r => .refused r

/-- A step from `s` executes `LD ST, Vx`, the one instruction that writes `ST` (R173, R200). -/
def SetsSound (s : State) : Prop := s.err = none ∧ ∃ x, nextInstr s = .ok (.ldStVx x)

/-- Transactions from `c` of which none is a reset and no step executes `LD ST, Vx`: the ticks among them are all that
writes `ST`. -/
def NoSoundWrite (c : Session) (ts : List Transaction) : Prop :=
  match ts with
  | [] => True
  | t :: rest =>
    (∀ seed, t ≠ .reset seed) ∧ (t = .step → ¬ SetsSound c.machine) ∧
      ∀ d r, c.perform t = .next (d, r) → NoSoundWrite d rest

/-- Whether an instruction is `RND` (R180). -/
def isRnd (i : Instr) : Bool :=
  match i with
  | .rnd _ _ => true
  | _ => false

/-- The parts of the state an instruction may write besides `ERR` (R22, R23, R26 to R30, R34, R67, R133, R143, R156,
R165). -/
def mayWrite (i : Instr) : List Field :=
  match i with
  | .cls => [.fb, .pc]
  | .ret => [.stack, .pc]
  | .sys _ => []
  | .jp _ => [.pc]
  | .call _ => [.stack, .pc]
  | .seImm _ _ => [.pc]
  | .sneImm _ _ => [.pc]
  | .seReg _ _ => [.pc]
  | .ldImm _ _ => [.v, .pc]
  | .addImm _ _ => [.v, .pc]
  | .ldReg _ _ => [.v, .pc]
  | .orReg _ _ => [.v, .pc]
  | .andReg _ _ => [.v, .pc]
  | .xorReg _ _ => [.v, .pc]
  | .addReg _ _ => [.v, .pc]
  | .subReg _ _ => [.v, .pc]
  | .shr _ _ => [.v, .pc]
  | .subn _ _ => [.v, .pc]
  | .shl _ _ => [.v, .pc]
  | .sneReg _ _ => [.pc]
  | .ldI _ => [.i, .pc]
  | .jpV0 _ => [.pc]
  | .rnd _ _ => [.v, .rng, .pc]
  | .drw _ _ _ => [.v, .fb, .pc]
  | .skp _ => [.pc]
  | .sknp _ => [.pc]
  | .ldVxDt _ => [.v, .pc]
  | .ldVxK _ => [.v, .kedge, .pc]
  | .ldDtVx _ => [.dt, .pc]
  | .ldStVx _ => [.st, .pc]
  | .addI _ => [.i, .pc]
  | .ldF _ => [.i, .pc]
  | .ldB _ => [.mem, .pc]
  | .storeRegs _ => [.mem, .pc]
  | .loadRegs _ => [.v, .pc]

/-- Whether an instruction names `V[r]` as an ordinary destination, a block load included (R21, R22, R190). -/
def writesReg (i : Instr) (r : Nibble) : Prop :=
  match i with
  | .ldImm x _ => x = r
  | .addImm x _ => x = r
  | .ldReg x _ => x = r
  | .orReg x _ => x = r
  | .andReg x _ => x = r
  | .xorReg x _ => x = r
  | .addReg x _ => x = r
  | .subReg x _ => x = r
  | .shr x _ => x = r
  | .subn x _ => x = r
  | .shl x _ => x = r
  | .rnd x _ => x = r
  | .ldVxDt x => x = r
  | .ldVxK x => x = r
  | .loadRegs x => r.toNat ≤ x.toNat
  | .cls => False
  | .ret => False
  | .sys _ => False
  | .jp _ => False
  | .call _ => False
  | .seImm _ _ => False
  | .sneImm _ _ => False
  | .seReg _ _ => False
  | .sneReg _ _ => False
  | .ldI _ => False
  | .jpV0 _ => False
  | .drw _ _ _ => False
  | .skp _ => False
  | .sknp _ => False
  | .ldDtVx _ => False
  | .ldStVx _ => False
  | .addI _ => False
  | .ldF _ => False
  | .ldB _ => False
  | .storeRegs _ => False

/-- The six instructions that write `VF` as a side effect (R22). -/
def writesFlag (i : Instr) : Prop :=
  match i with
  | .addReg _ _ => True
  | .subReg _ _ => True
  | .shr _ _ => True
  | .subn _ _ => True
  | .shl _ _ => True
  | .drw _ _ _ => True
  | _ => False

/-- Whether an instruction is `DRW` (R140). -/
def isDrw (i : Instr) : Prop :=
  match i with
  | .drw _ _ _ => True
  | _ => False

end Sys2Proof.Claims

open Sys2Proof Sys2Proof.Machine Sys2Proof.Claims

/-! ### Encoding and decoding -/

/-- A few words written out from R95's patterns, one or more of each family, decode to the instruction they stand
for (derived: R94 and R95 in part; that `0123` is `SYS`, a shape of its own, is decision D3, entry 6). -/
def Obligations.SampleWordsDecode : Prop :=
  decode 0x00E0#16 = .ok .cls ∧ decode 0x00EE#16 = .ok .ret ∧ decode 0x0123#16 = .ok (.sys 0x123#12) ∧
  decode 0x1228#16 = .ok (.jp 0x228#12) ∧ decode 0x4A10#16 = .ok (.sneImm 0xA#4 0x10#8) ∧
  decode 0x8017#16 = .ok (.subn 0x0#4 0x1#4) ∧ decode 0x810E#16 = .ok (.shl 0x1#4 0x0#4) ∧
  decode 0xC10F#16 = .ok (.rnd 0x1#4 0x0F#8) ∧ decode 0xD123#16 = .ok (.drw 0x1#4 0x2#4 0x3#4) ∧
  decode 0xE19E#16 = .ok (.skp 0x1#4) ∧ decode 0xF30A#16 = .ok (.ldVxK 0x3#4) ∧
  decode 0xF265#16 = .ok (.loadRegs 0x2#4)

/-- Every well-formed instruction, with every operand at every value, is what its word decodes to (derived: R94,
R95). -/
def Obligations.DecodeOfEncode : Prop := ∀ i : Instr, i.WellFormed = true → decode (encode i) = .ok i

/-- A word that decodes is the word of its instruction, and the instruction is well-formed: no bit of a legal word is
dropped, no word has two meanings (derived: R94, R95, R97). -/
def Obligations.EncodeOfDecode : Prop :=
  ∀ (w : Word) (i : Instr), decode w = .ok i → encode i = w ∧ i.WellFormed = true

/-- The decoder, which follows the digits of a word as R94 does, picks for every word the first row of R95's table whose
mask and match fit, and refuses exactly the words that fit no row (derived: R94 and R95; that `0nnn` is a row is
decision D3, that `5xyN` and `9xyN` have no other is decision D4). -/
def Obligations.DecodePicksFirstMatchingRow : Prop :=
  ∀ w : Word, (decode w).toOption.map shapeRow = shapeTable.findIdx? (fun row => w &&& row.1 == row.2)

/-- The decoder refuses exactly the words of R98's list that are illegal under either `SYS_POLICY`, and by the word
(derived: R98 in part; `5xyN` and `9xyN` with `N` not 0 are decision D4). -/
def Obligations.IllegalWordsAreRefused : Prop :=
  ∀ w : Word, (IllegalWord w → decode w = .error (.invalidOpcode w)) ∧ (¬ IllegalWord w → ∃ i, decode w = .ok i)

/-! ### The step -/

/-- When no error is latched and the two bytes at `PC` decode to an instruction, the step is that instruction's
execution, `PC` still holding its address: nothing is done around it (derived: R200 in part). -/
def Obligations.StepRunsDecodedInstruction : Prop :=
  ∀ (s : State) (i : Instr), s.err = none → s.pc.toNat < 0xFFF →
    decodeBytes [s.byteAt s.pc.toNat, s.byteAt (s.pc.toNat + 1)] = .ok i → step s = exec i s

/-- A fetch at 0xFFF or above latches `OutOfBounds` with `PC` and `max(PC, 0x1000)` and changes nothing else (derived:
R63; the payload is decision D17, the bound conflict C1). -/
def Obligations.FetchBeyondMemoryRaises : Prop :=
  ∀ s : State, s.err = none → 0xFFF ≤ s.pc.toNat →
    step s = .next { s with err := some (.outOfBounds s.pc (payloadAddr s.pc)) }

/-- A fetched word of no shape latches `InvalidOpcode` with the word, high byte first, and its address, and changes
nothing else (derived: R202 in part, R206 with decision D17). -/
def Obligations.UndecodableWordRaises : Prop :=
  ∀ (s : State) (w : Word), s.err = none → s.pc.toNat < 0xFFF →
    w = s.byteAt s.pc.toNat ++ s.byteAt (s.pc.toNat + 1) → IllegalWord w →
    step s = .next { s with err := some (.invalidOpcode w s.pc) }

/-- A halted machine changes nothing and returns the same error (derived: R206, decision D17). -/
def Obligations.HaltedStepChangesNothing : Prop :=
  ∀ (s : State) (e : RunError), s.err = some e →
    step s = .next s ∧ stepTransaction s = .next (s, .err e)

/-- Every step answers a next state, whatever the state: no word and no state is refused (derived: R101,
R200, R206; that an error is a next state with `ERR` latched is entry 1, from decision D17). -/
def Obligations.StepAlwaysAnswers : Prop := ∀ s : State, ∃ t, step s = .next t

/-- Errors are precise: a step that latches an error changes nothing else, `PC` included (derived: R206, decisions D17
and D20). -/
def Obligations.RaisingStepChangesOnlyErr : Prop :=
  ∀ (s t : State) (e : RunError), s.err = none → step s = .next t → t.err = some e → t = { s with err := some e }

/-- The complete list of causes: which error a step can raise, and when (derived: the table of R201 with decisions D3
and D17, R203 to R205). -/
def Obligations.ErrorsHaveTheirListedCauses : Prop :=
  ∀ (s t : State) (e : RunError), s.err = none → step s = .next t → t.err = some e →
    match e with
    | .invalidOpcode w pc => pc = s.pc ∧ fetch s = .ok w ∧ (IllegalWord w ∨ ∃ nnn, decode w = .ok (.sys nnn))
    | .outOfBounds pc addr => pc = s.pc ∧
        ((0xFFF ≤ s.pc.toNat ∧ addr = payloadAddr s.pc) ∨
         (addr = payloadAddr s.i ∧
          ((∃ x y n, nextInstr s = .ok (.drw x y n) ∧ 0 < n.toNat ∧ 0xFFF < s.i.toNat + n.toNat - 1) ∨
           (∃ x, nextInstr s = .ok (.ldB x) ∧ 0xFFF < s.i.toNat + 2) ∨
           (∃ x, (nextInstr s = .ok (.storeRegs x) ∨ nextInstr s = .ok (.loadRegs x)) ∧
             0xFFF < s.i.toNat + x.toNat))))
    | .stackOverflow pc depth => pc = s.pc ∧ depth = 16 ∧ 16 ≤ s.sp ∧ ∃ nnn, nextInstr s = .ok (.call nnn)
    | .stackUnderflow pc => pc = s.pc ∧ s.sp = 0 ∧ nextInstr s = .ok .ret

/-- The three statuses of a step: `Ok`; `WaitingForKey`, exactly when the instruction at `PC` is `LD Vx, K` and no press
is latched, with no state changed; `Err(e)` with the error that is latched afterwards (derived: R12, R170, R200; that a
wait changes no state is decision D15, entry 15; that an error is latched is decision D17; that it is a next state, its
status beside it, is entry 1). -/
def Obligations.StatusOfAStep : Prop :=
  ∀ s : State, ∃ t r, step s = .next t ∧ stepTransaction s = .next (t, r) ∧
    match r with
    | .ok => t.err = none ∧ ¬ (s.kedge = none ∧ ∃ x, nextInstr s = .ok (.ldVxK x))
    | .waitingForKey => t = s ∧ s.err = none ∧ s.kedge = none ∧ ∃ x, nextInstr s = .ok (.ldVxK x)
    | .err e => t.err = some e
    | .none => False
    | .romTooLarge _ => False

/-! ### Register load, logic and arithmetic (spec file 40) -/

/-- `LD Vx, kk`: the word `6xkk`, `V[x]` becomes `kk`, nothing else changes but `PC` (derived: R120; that `VF` is left
alone unless `x = 15` is decision D8, entry 15). -/
def Obligations.LoadImmediate : Prop :=
  ∀ (x : Nibble) (kk : Byte) (s : State),
    decode (wordXKK 0x6#4 x kk) = .ok (.ldImm x kk) ∧
    ∃ t, exec (.ldImm x kk) s = .next t ∧
      (∀ r, t.getV r = if r = x then kk else s.getV r) ∧ t.pc = s.pc + 2#16 ∧ SameBut [.v, .pc] s t

/-- `ADD Vx, kk`: the word `7xkk`, the sum modulo 256, `VF` not written unless `x = 15` (derived: R121; that
no flag is written is decisions D8 and D10, entry 15). -/
def Obligations.AddImmediate : Prop :=
  ∀ (x : Nibble) (kk : Byte) (s : State),
    decode (wordXKK 0x7#4 x kk) = .ok (.addImm x kk) ∧
    ∃ t, exec (.addImm x kk) s = .next t ∧
      (∀ r, t.getV r = if r = x then BitVec.ofNat 8 (((s.getV x).toNat + kk.toNat) % 256) else s.getV r) ∧
      t.pc = s.pc + 2#16 ∧ SameBut [.v, .pc] s t

/-- `LD Vx, Vy`: the word `8xy0`, `V[x]` becomes `V[y]` (derived: R122; that `VF` is left alone unless `x = 15` is
decision D8, entry 15). -/
def Obligations.LoadRegister : Prop :=
  ∀ (x y : Nibble) (s : State),
    decode (wordXYN 0x8#4 x y 0x0#4) = .ok (.ldReg x y) ∧
    ∃ t, exec (.ldReg x y) s = .next t ∧
      (∀ r, t.getV r = if r = x then s.getV y else s.getV r) ∧ t.pc = s.pc + 2#16 ∧ SameBut [.v, .pc] s t

/-- `OR`, `AND`, `XOR`: bit by bit into `V[x]`; `VF` unchanged unless `x = 15` (derived: R123 to R125, decision D8). -/
def Obligations.BitwiseLogic : Prop :=
  ∀ (x y : Nibble) (s : State),
    (∃ t, exec (.orReg x y) s = .next t ∧ (∀ r, r ≠ x → t.getV r = s.getV r) ∧
      (∀ k, (t.getV x).getLsbD k = ((s.getV x).getLsbD k || (s.getV y).getLsbD k)) ∧
      t.pc = s.pc + 2#16 ∧ SameBut [.v, .pc] s t) ∧
    (∃ t, exec (.andReg x y) s = .next t ∧ (∀ r, r ≠ x → t.getV r = s.getV r) ∧
      (∀ k, (t.getV x).getLsbD k = ((s.getV x).getLsbD k && (s.getV y).getLsbD k)) ∧
      t.pc = s.pc + 2#16 ∧ SameBut [.v, .pc] s t) ∧
    (∃ t, exec (.xorReg x y) s = .next t ∧ (∀ r, r ≠ x → t.getV r = s.getV r) ∧
      (∀ k, (t.getV x).getLsbD k = ((s.getV x).getLsbD k ^^ (s.getV y).getLsbD k)) ∧
      t.pc = s.pc + 2#16 ∧ SameBut [.v, .pc] s t)

/-- `ADD Vx, Vy`: the word `8xy4`; `VF` is 1 iff the unbounded sum exceeds 255, for every `x`; `V[x]` holds the sum
modulo 256 unless it is `VF` (derived: R126; that the flag is written last, for `x = 15`, is R132's decision D9). -/
def Obligations.AddWithCarry : Prop :=
  ∀ (x y : Nibble) (s : State),
    decode (wordXYN 0x8#4 x y 0x4#4) = .ok (.addReg x y) ∧
    ∃ t, exec (.addReg x y) s = .next t ∧
      (∀ r, t.getV r =
        if r = 0xF#4 then (if 255 < (s.getV x).toNat + (s.getV y).toNat then 1#8 else 0#8)
        else if r = x then BitVec.ofNat 8 (((s.getV x).toNat + (s.getV y).toNat) % 256)
        else s.getV r) ∧
      t.pc = s.pc + 2#16 ∧ SameBut [.v, .pc] s t

/-- `SUB Vx, Vy` (`8xy5`) and `SUBN Vx, Vy` (`8xy7`): `Vx - Vy` and `Vy - Vx` modulo 256; `VF` is 1 exactly when the
minuend is at least the subtrahend (derived: R127, R129; that the flag is written last, for `x = 15`, is R132's decision
D9). -/
def Obligations.SubtractNotBorrow : Prop :=
  ∀ (x y : Nibble) (s : State),
    decode (wordXYN 0x8#4 x y 0x5#4) = .ok (.subReg x y) ∧ decode (wordXYN 0x8#4 x y 0x7#4) = .ok (.subn x y) ∧
    (∃ t, exec (.subReg x y) s = .next t ∧
      (∀ r, t.getV r =
        if r = 0xF#4 then (if (s.getV y).toNat ≤ (s.getV x).toNat then 1#8 else 0#8)
        else if r = x then BitVec.ofNat 8 (((s.getV x).toNat + 256 - (s.getV y).toNat) % 256)
        else s.getV r) ∧
      t.pc = s.pc + 2#16 ∧ SameBut [.v, .pc] s t) ∧
    (∃ t, exec (.subn x y) s = .next t ∧
      (∀ r, t.getV r =
        if r = 0xF#4 then (if (s.getV x).toNat ≤ (s.getV y).toNat then 1#8 else 0#8)
        else if r = x then BitVec.ofNat 8 (((s.getV y).toNat + 256 - (s.getV x).toNat) % 256)
        else s.getV r) ∧
      t.pc = s.pc + 2#16 ∧ SameBut [.v, .pc] s t)

/-- `SHR` and `SHL` shift `V[x]` by one whatever `y`, and `VF` is the bit shifted out (derived: R128, R130; that the
source is `V[x]` is decision D5, entry 4). -/
def Obligations.ShiftByOne : Prop :=
  ∀ (x y : Nibble) (s : State),
    (∃ t, exec (.shr x y) s = .next t ∧
      (∀ r, t.getV r =
        if r = 0xF#4 then BitVec.ofNat 8 ((s.getV x).toNat % 2)
        else if r = x then BitVec.ofNat 8 ((s.getV x).toNat / 2)
        else s.getV r) ∧
      t.pc = s.pc + 2#16 ∧ SameBut [.v, .pc] s t) ∧
    (∃ t, exec (.shl x y) s = .next t ∧
      (∀ r, t.getV r =
        if r = 0xF#4 then BitVec.ofNat 8 ((s.getV x).toNat / 128)
        else if r = x then BitVec.ofNat 8 ((s.getV x).toNat * 2 % 256)
        else s.getV r) ∧
      t.pc = s.pc + 2#16 ∧ SameBut [.v, .pc] s t)

/-! ### Display (spec file 41) -/

/-- `CLS`: the word `00E0`, every pixel off, nothing else changes but `PC` (R141). -/
def Obligations.ClearScreen : Prop :=
  decode 0x00E0#16 = .ok .cls ∧
  ∀ s : State, ∃ t, exec .cls s = .next t ∧ (∀ X Y, t.fb.pixel X Y = false) ∧ t.pc = s.pc + 2#16 ∧
    SameBut [.fb, .pc] s t

/-- `DRW` inside the address space, `n = 0` included: a pixel is flipped exactly when a 1 bit of the sprite lands on it,
coordinates wrapping per pixel, and `VF` is 1 if some flipped pixel was on, else 0 (derived: R140, R142, decision
D11). -/
def Obligations.DrawXorsTheSprite : Prop :=
  ∀ (x y n : Nibble) (s : State), n = 0#4 ∨ s.i.toNat + n.toNat - 1 ≤ 0xFFF →
    ∃ t, exec (.drw x y n) s = .next t ∧
      (∀ X Y, Covers x y n s X Y → t.fb.pixel X Y = !(s.fb.pixel X Y)) ∧
      (∀ X Y, ¬ Covers x y n s X Y → t.fb.pixel X Y = s.fb.pixel X Y) ∧
      ((∃ X Y, Covers x y n s X Y ∧ s.fb.pixel X Y = true) → t.getV 0xF#4 = 1#8) ∧
      ((∀ X Y, Covers x y n s X Y → s.fb.pixel X Y = false) → t.getV 0xF#4 = 0#8) ∧
      (∀ r, r ≠ 0xF#4 → t.getV r = s.getV r) ∧ t.pc = s.pc + 2#16 ∧ SameBut [.v, .fb, .pc] s t

/-- Drawing the same sprite at the same place twice restores the framebuffer, and the second draw sets `VF` exactly when
it cleared a pixel (derived: R140's property from doc00, decision D11). The state of the second draw is any one that
holds the first one's framebuffer and the same sprite and coordinates. -/
def Obligations.DrawTwiceRestores : Prop :=
  ∀ (x y n : Nibble) (s : State), n = 0#4 ∨ s.i.toNat + n.toNat - 1 ≤ 0xFFF →
    ∃ t, exec (.drw x y n) s = .next t ∧
      ∀ u : State, u.fb = t.fb → u.i = s.i → u.getV x = s.getV x → u.getV y = s.getV y →
        (∀ a, u.byteAt a = s.byteAt a) →
        ∃ w, exec (.drw x y n) u = .next w ∧ w.fb = s.fb ∧
          ((∃ X Y, u.fb.pixel X Y = true ∧ w.fb.pixel X Y = false) → w.getV 0xF#4 = 1#8) ∧
          ((∀ X Y, u.fb.pixel X Y = true → w.fb.pixel X Y = true) → w.getV 0xF#4 = 0#8)

/-! ### Skips (spec file 42) -/

/-- The four skips that compare registers and immediates: `3xkk`, `4xkk`, `5xy0`, `9xy0` advance `PC` by 4 when the
comparison holds, else by 2, and change nothing else (R150, R151; R152 and R153 in part, without the other words of
their high digits). -/
def Obligations.SkipOnComparison : Prop :=
  ∀ (x y : Nibble) (kk : Byte) (s : State),
    decode (wordXKK 0x3#4 x kk) = .ok (.seImm x kk) ∧ decode (wordXKK 0x4#4 x kk) = .ok (.sneImm x kk) ∧
    decode (wordXYN 0x5#4 x y 0x0#4) = .ok (.seReg x y) ∧ decode (wordXYN 0x9#4 x y 0x0#4) = .ok (.sneReg x y) ∧
    (∃ t, exec (.seImm x kk) s = .next t ∧
      t.pc = (if s.getV x = kk then s.pc + 4#16 else s.pc + 2#16) ∧ SameBut [.pc] s t) ∧
    (∃ t, exec (.sneImm x kk) s = .next t ∧
      t.pc = (if s.getV x ≠ kk then s.pc + 4#16 else s.pc + 2#16) ∧ SameBut [.pc] s t) ∧
    (∃ t, exec (.seReg x y) s = .next t ∧
      t.pc = (if s.getV x = s.getV y then s.pc + 4#16 else s.pc + 2#16) ∧ SameBut [.pc] s t) ∧
    (∃ t, exec (.sneReg x y) s = .next t ∧
      t.pc = (if s.getV x ≠ s.getV y then s.pc + 4#16 else s.pc + 2#16) ∧ SameBut [.pc] s t)

/-- `SKP` and `SKNP` test the level of the key whose number is the low 4 bits of `V[x]`, consume no edge and change
nothing but `PC` (derived: R154, R155, decision D13). -/
def Obligations.SkipOnKey : Prop :=
  ∀ (x k : Nibble) (s : State), (s.getV x).toNat % 16 = k.toNat →
    (∃ t, exec (.skp x) s = .next t ∧
      t.pc = (if s.keyDown k = true then s.pc + 4#16 else s.pc + 2#16) ∧ SameBut [.pc] s t) ∧
    (∃ t, exec (.sknp x) s = .next t ∧
      t.pc = (if s.keyDown k = false then s.pc + 4#16 else s.pc + 2#16) ∧ SameBut [.pc] s t)

/-! ### Jump, call, return, SYS (spec file 43) -/

/-- `JP nnn`: the word `1nnn`, `PC` becomes `nnn`, whatever it is; a jump to its own address changes nothing (R162). -/
def Obligations.JumpSetsPc : Prop :=
  ∀ (nnn : Addr) (s : State),
    decode (wordNNN 0x1#4 nnn) = .ok (.jp nnn) ∧
    (∃ t, exec (.jp nnn) s = .next t ∧ t.pc.toNat = nnn.toNat ∧ SameBut [.pc] s t) ∧
    (s.pc.toNat = nnn.toNat → exec (.jp nnn) s = .next s)

/-- `JP V0, nnn`: `PC` becomes `nnn + V[0]`, not reduced modulo 4096 (derived: R163, decision D7). -/
def Obligations.JumpPlusV0 : Prop :=
  ∀ (nnn : Addr) (s : State),
    ∃ t, exec (.jpV0 nnn) s = .next t ∧ t.pc.toNat = nnn.toNat + (s.getV 0#4).toNat ∧ SameBut [.pc] s t

/-- `CALL nnn` with room on the stack pushes its own address and jumps (derived: R160, decision D16). -/
def Obligations.CallPushes : Prop :=
  ∀ (nnn : Addr) (s : State), s.stack.length < 16 →
    ∃ t, exec (.call nnn) s = .next t ∧ t.stack = s.stack ++ [s.pc] ∧ t.sp = s.sp + 1 ∧
      t.pc.toNat = nnn.toNat ∧ SameBut [.stack, .pc] s t

/-- `CALL` that finds `SP = 16` raises `StackOverflow`; of 17 calls in a row from an empty stack the first 16 succeed
and the 17th raises (derived: R204; the payload, the latch and that nothing else changes are decisions D17 and D20). -/
def Obligations.SeventeenthCallOverflows : Prop :=
  (∀ (nnn : Addr) (s : State), s.sp = 16 →
    exec (.call nnn) s = .next { s with err := some (.stackOverflow s.pc 16) }) ∧
  (∀ (targets : List Addr) (last : Addr) (s : State), s.sp = 0 → targets.length = 16 →
    (∀ k ≤ 16, ∃ t, runAll ((targets.take k).map Instr.call) s = .next t ∧ t.sp = k ∧ t.err = s.err) ∧
    ∃ t, runAll (targets.map Instr.call) s = .next t ∧
      exec (.call last) t = .next { t with err := some (.stackOverflow t.pc 16) })

/-- `RET` with an entry on the stack pops the newest and goes on 2 after it (derived: R161, decision D16 for what the
entry is). -/
def Obligations.ReturnPops : Prop :=
  ∀ (l : List Word) (r : Word) (s : State), s.stack = l ++ [r] →
    ∃ t, exec .ret s = .next t ∧ t.stack = l ∧ t.pc = r + 2#16 ∧ SameBut [.stack, .pc] s t

/-- `RET` that finds `SP = 0` raises `StackUnderflow` and changes nothing else (derived: R205; the payload and the latch
are decisions D17 and D20). -/
def Obligations.ReturnOnEmptyUnderflows : Prop :=
  ∀ s : State, s.sp = 0 → exec .ret s = .next { s with err := some (.stackUnderflow s.pc) }

/-- `CALL` then `RET` returns to the instruction after the `CALL` and leaves the stack as it was, whatever the machine
did in between, as long as the stack is the one the `CALL` left (derived: R160's property from doc00). -/
def Obligations.CallThenReturn : Prop :=
  ∀ (nnn : Addr) (s : State), s.stack.length < 16 →
    ∃ t, exec (.call nnn) s = .next t ∧ ∀ u : State, u.stack = t.stack →
      ∃ w, exec .ret u = .next w ∧ w.pc = s.pc + 2#16 ∧ w.stack = s.stack ∧ w.sp = s.sp

/-- `SYS nnn` raises `InvalidOpcode` with its own word `0nnn` (derived: R164 with `SYS_POLICY = fault`, decision D3,
entry 6). -/
def Obligations.SysRaisesInvalidOpcode : Prop :=
  ∀ (nnn : Addr) (s : State),
    exec (.sys nnn) s = .next { s with err := some (.invalidOpcode (BitVec.ofNat 16 nnn.toNat) s.pc) }

/-! ### Wait for key, timers (spec file 44) -/

/-- `LD Vx, K` with a latched edge takes the key number and consumes the edge; the key levels stay (derived: R170,
decisions D14 and D15). -/
def Obligations.KeyWaitCompletes : Prop :=
  ∀ (x k : Nibble) (s : State), s.kedge = some k →
    ∃ t, exec (.ldVxK x) s = .next t ∧
      (∀ r, t.getV r = if r = x then BitVec.ofNat 8 k.toNat else s.getV r) ∧ t.kedge = none ∧
      t.pc = s.pc + 2#16 ∧ SameBut [.v, .kedge, .pc] s t

/-- `LD Vx, K` with no latched edge changes nothing, and the step returns `WaitingForKey` (derived: R170, decision
D15). -/
def Obligations.KeyWaitHolds : Prop :=
  ∀ (x : Nibble) (s : State), s.kedge = none →
    exec (.ldVxK x) s = .next s ∧
    (s.err = none → nextInstr s = .ok (.ldVxK x) → stepTransaction s = .next (s, .waitingForKey))

/-- `LD Vx, DT` (`Fx07`), `LD DT, Vx` (`Fx15`), `LD ST, Vx` (`Fx18`): one register each way, any value. A tick after `LD
DT, Vx` counts down from the new value, and from 0 it leaves 0; the sound is active at once after `LD ST, Vx` exactly if
`V[x]` is not 0 (derived: R171, R172 and R173 in part, R220, R221; that no instruction reads `ST` back is
`SoundTimerIsNeverRead`). -/
def Obligations.TimerAccess : Prop :=
  ∀ (x : Nibble) (s : State),
    decode (wordXKK 0xF#4 x 0x07#8) = .ok (.ldVxDt x) ∧ decode (wordXKK 0xF#4 x 0x15#8) = .ok (.ldDtVx x) ∧
    decode (wordXKK 0xF#4 x 0x18#8) = .ok (.ldStVx x) ∧
    (∃ t, exec (.ldVxDt x) s = .next t ∧ (∀ r, t.getV r = if r = x then s.dt else s.getV r) ∧
      t.pc = s.pc + 2#16 ∧ SameBut [.v, .pc] s t) ∧
    (∃ t, exec (.ldDtVx x) s = .next t ∧ t.dt = s.getV x ∧
      (tickTimers t).dt.toNat = (s.getV x).toNat - 1 ∧
      t.pc = s.pc + 2#16 ∧ SameBut [.dt, .pc] s t) ∧
    (∃ t, exec (.ldStVx x) s = .next t ∧ t.st = s.getV x ∧ (soundActive t = true ↔ s.getV x ≠ 0#8) ∧
      t.pc = s.pc + 2#16 ∧ SameBut [.st, .pc] s t)

/-! ### Random (spec file 45) -/

/-- `RND Vx, kk`: one draw whatever the mask, the drawn byte ANDed with `kk` into `V[x]`; true for every generator,
since nothing is known of `Config.rngNext` (derived: R180 in part, R181). -/
def Obligations.RandomByte : Prop :=
  ∀ (x : Nibble) (kk : Byte) (s : State),
    ∃ t, exec (.rnd x kk) s = .next t ∧ t.rng = (Config.rngNext s.rng).2 ∧
      (∀ r, t.getV r = if r = x then (Config.rngNext s.rng).1 &&& kk else s.getV r) ∧
      t.pc = s.pc + 2#16 ∧ SameBut [.v, .rng, .pc] s t

/-- The generator's state after any instructions is that of as many draws as there were `RND`s among them, so equal
seeds and equal counts of `RND` give equal draws (derived: R180, R181). -/
def Obligations.RngAdvancesOncePerRnd : Prop :=
  ∀ (l : List Instr) (s t : State), runAll l s = .next t →
    t.rng = (fun g => (Config.rngNext g).2)^[l.countP isRnd] s.rng

/-! ### Index register and memory (spec file 46) -/

/-- `LD I, nnn`: the word `Annn`, `I` becomes `nnn` (R185). -/
def Obligations.LoadIndex : Prop :=
  ∀ (nnn : Addr) (s : State),
    decode (wordNNN 0xA#4 nnn) = .ok (.ldI nnn) ∧
    ∃ t, exec (.ldI nnn) s = .next t ∧ t.i.toNat = nnn.toNat ∧ t.pc = s.pc + 2#16 ∧ SameBut [.i, .pc] s t

/-- `ADD I, Vx` adds modulo 2^16, writes no flag and raises nothing (derived: R186, decision D10). -/
def Obligations.AddToIndex : Prop :=
  ∀ (x : Nibble) (s : State),
    ∃ t, exec (.addI x) s = .next t ∧ t.i.toNat = (s.i.toNat + (s.getV x).toNat) % 65536 ∧
      t.pc = s.pc + 2#16 ∧ SameBut [.i, .pc] s t

/-- `LD F, Vx`: `I` becomes the address of the glyph of the low 4 bits of `V[x]`, 5 bytes a glyph from `FONT_BASE = 0`
(derived: R187, decision D12, entry 7). -/
def Obligations.LoadGlyphAddress : Prop :=
  ∀ (x : Nibble) (s : State),
    ∃ t, exec (.ldF x) s = .next t ∧ t.i.toNat = 5 * ((s.getV x).toNat % 16) ∧
      t.pc = s.pc + 2#16 ∧ SameBut [.i, .pc] s t

/-- `LD B, Vx`: the word `Fx33`; the hundreds, tens and ones digits of `V[x]` to `I`, `I+1`, `I+2`, no other address
written; from `I = 0xFFE` up it raises `OutOfBounds` before any byte is written (derived: R188; the payload and the
latch are decisions D17 and D20). -/
def Obligations.StoreDecimalDigits : Prop :=
  ∀ (x : Nibble) (s : State),
    decode (wordXKK 0xF#4 x 0x33#8) = .ok (.ldB x) ∧
    (s.i.toNat + 2 ≤ 0xFFF →
      ∃ t, exec (.ldB x) s = .next t ∧
        (t.byteAt s.i.toNat).toNat = (s.getV x).toNat / 100 ∧
        (t.byteAt (s.i.toNat + 1)).toNat = (s.getV x).toNat / 10 % 10 ∧
        (t.byteAt (s.i.toNat + 2)).toNat = (s.getV x).toNat % 10 ∧
        (∀ a, a < s.i.toNat ∨ s.i.toNat + 2 < a → t.byteAt a = s.byteAt a) ∧
        t.pc = s.pc + 2#16 ∧ SameBut [.mem, .pc] s t) ∧
    (0xFFE ≤ s.i.toNat →
      exec (.ldB x) s = .next { s with err := some (.outOfBounds s.pc (payloadAddr s.i)) })

/-- `LD [I], Vx` inside the address space stores `V[0]` to `V[x]` at `I` to `I+x`, no other address written, `I`
unchanged (derived: R189; `I` unchanged is decision D6, entry 5). -/
def Obligations.StoreRegisterBlock : Prop :=
  ∀ (x : Nibble) (s : State), s.i.toNat + x.toNat ≤ 0xFFF →
    ∃ t, exec (.storeRegs x) s = .next t ∧
      (∀ r : Nibble, r.toNat ≤ x.toNat → t.byteAt (s.i.toNat + r.toNat) = s.getV r) ∧
      (∀ a, a < s.i.toNat ∨ s.i.toNat + x.toNat < a → t.byteAt a = s.byteAt a) ∧
      t.pc = s.pc + 2#16 ∧ SameBut [.mem, .pc] s t

/-- `LD Vx, [I]` inside the address space loads `V[0]` to `V[x]` from `I` to `I+x`, higher registers, memory and `I`
unchanged (derived: R190; `I` unchanged is decision D6, entry 5). -/
def Obligations.LoadRegisterBlock : Prop :=
  ∀ (x : Nibble) (s : State), s.i.toNat + x.toNat ≤ 0xFFF →
    ∃ t, exec (.loadRegs x) s = .next t ∧
      (∀ r : Nibble, t.getV r = if r.toNat ≤ x.toNat then s.byteAt (s.i.toNat + r.toNat) else s.getV r) ∧
      t.pc = s.pc + 2#16 ∧ SameBut [.v, .pc] s t

/-- The accesses through `I` whose last address is above 0xFFF raise `OutOfBounds` with `max(I, 0x1000)` and have no
part of their effect (derived: R66, decisions D17 and D20). -/
def Obligations.AccessBeyondMemoryRaises : Prop :=
  ∀ (x y n : Nibble) (s : State),
    (n ≠ 0#4 → 0xFFF < s.i.toNat + n.toNat - 1 →
      exec (.drw x y n) s = .next { s with err := some (.outOfBounds s.pc (payloadAddr s.i)) }) ∧
    (0xFFF < s.i.toNat + x.toNat →
      exec (.storeRegs x) s = .next { s with err := some (.outOfBounds s.pc (payloadAddr s.i)) } ∧
      exec (.loadRegs x) s = .next { s with err := some (.outOfBounds s.pc (payloadAddr s.i)) })

/-- A block store is seen by every later fetch: from any address of the block but the last, the word fetched is the two
registers stored there, the lower-numbered one the high byte (derived: R74, R64, from R63). -/
def Obligations.StoreSeenByFetch : Prop :=
  ∀ (x r : Nibble) (s : State), s.i.toNat + x.toNat ≤ 0xFFF → r.toNat + 1 ≤ x.toNat →
    ∃ t, exec (.storeRegs x) s = .next t ∧
      ∀ u : State, (∀ a, u.byteAt a = t.byteAt a) → u.pc.toNat = s.i.toNat + r.toNat →
        fetch u = .ok (s.getV r ++ s.getV (r + 1#4))

/-! ### What no instruction does -/

/-- The frame of the whole instruction set: an instruction that answers a next state leaves every part of the state it
may not write as it was (derived: R22, R23, R26 to R30, R34, R67, R133, R143, R156, R165; that the block accesses leave
`I` alone is decision D6, entry 5; that `SYS` writes `ERR` only is decision D3, entry 6; that `OR`, `AND` and `XOR`
write no register but `V[x]` is decision D8 and that `ADD I, Vx` writes no flag decision D10, entry 15). -/
def Obligations.InstructionsWriteOnlyTheirParts : Prop :=
  ∀ (i : Instr) (s t : State), exec i s = .next t → SameBut (.err :: mayWrite i) s t

/-- `VF` is written by the six flag writers, with 0 or 1 unless they raise, and by no other instruction except as an
ordinary destination; every other register only as a destination (derived: R21, R22, decision D9). -/
def Obligations.RegisterWriters : Prop :=
  ∀ (i : Instr) (s t : State), exec i s = .next t →
    (∀ r, ¬ writesReg i r → (r = 0xF#4 → ¬ writesFlag i) → t.getV r = s.getV r) ∧
    (writesFlag i → t.getV 0xF#4 = 0#8 ∨ t.getV 0xF#4 = 1#8 ∨ t = { s with err := t.err })

/-- No instruction reads `ST`: changing it changes nothing of what an instruction does but `ST` itself (derived:
R27). -/
def Obligations.SoundTimerIsNeverRead : Prop :=
  ∀ (i : Instr) (s t : State) (b : Byte), exec i s = .next t →
    ∃ c, exec i { s with st := b } = .next { t with st := c }

/-- No instruction reads a pixel into a register: changing the framebuffer changes nothing of what an instruction does
but the framebuffer itself and, for `DRW`, `VF` (derived: R28, R143). -/
def Obligations.FramebufferIsNeverRead : Prop :=
  ∀ (i : Instr) (s t : State) (f : Framebuffer), exec i s = .next t →
    ∃ u, exec i { s with fb := f } = .next u ∧ SameBut [.fb, .v] t u ∧ (∀ r, r ≠ 0xF#4 → u.getV r = t.getV r) ∧
      (¬ isDrw i → ∀ r, u.getV r = t.getV r)

/-! ### The other transactions (spec files 60 and 70) -/

/-- `tick_timers()` decrements each timer by one if it is not zero, touches nothing else, and is accepted in every
state (derived: R220, decision D23). -/
def Obligations.TickDecrementsBothTimers : Prop :=
  ∀ s : State, (tickTimers s).dt.toNat = s.dt.toNat - 1 ∧ (tickTimers s).st.toNat = s.st.toNat - 1 ∧
    SameBut [.dt, .st] s (tickTimers s)

/-- Sound is active exactly while `ST` is not 0. After `LD ST, Vx` with `V[x] = v > 0`, and through any transactions
with no reset and no further `LD ST` among them, steps, key events and loads between the ticks included, it is active
until the `v`-th following tick and not after it (derived: R220, R221, R222; that the host picks the order is decisions
D1 and D2, that a halted or waiting machine takes ticks decision D23, entry 12). -/
def Obligations.SoundLastsForItsTicks : Prop :=
  (∀ s : State, soundActive s = true ↔ s.st ≠ 0#8) ∧
  ∀ (x : Nibble) (s : State), 0 < (s.getV x).toNat →
    ∃ t, exec (.ldStVx x) s = .next t ∧
      ∀ (c d : Session) (ts : List Transaction) (rs : List Result), c.machine = t → NoSoundWrite c ts →
        c.performAll ts = .next (d, rs) →
        (soundActive d.machine = true ↔ ts.count .tickTimers < (s.getV x).toNat)

/-- `key_set` of a released key presses it and latches its edge over an older one, of a pressed key it does nothing;
`key_clear` releases and keeps the edge (derived: R225, R226, decision D14). -/
def Obligations.KeyTransactions : Prop :=
  ∀ (k : Nibble) (s : State),
    (s.keyDown k = false →
      (keySet k s).kedge = some k ∧ (∀ q, (keySet k s).keyDown q = if q = k then true else s.keyDown q) ∧
      SameBut [.key, .kedge] s (keySet k s)) ∧
    (s.keyDown k = true → keySet k s = s) ∧
    ((∀ q, (keyClear k s).keyDown q = if q = k then false else s.keyDown q) ∧ SameBut [.key] s (keyClear k s))

/-- `load_rom`: up to 3584 bytes go verbatim to 0x200 onward and nothing else changes; more are refused with
`RomTooLarge(len)`, which is not latched and changes nothing (derived: R76, R207, R252; that a failed load leaves the
state untouched is decision D22). -/
def Obligations.RomLoadsVerbatimOrNotAtAll : Prop :=
  ∀ (bytes : List Byte) (s : State),
    (bytes.length ≤ 3584 →
      (loadRom bytes s).2 = .ok ∧
      (∀ k, k < bytes.length → (loadRom bytes s).1.byteAt (0x200 + k) = bytes.getD k 0#8) ∧
      (∀ a, a < 0x200 ∨ 0x200 + bytes.length ≤ a → (loadRom bytes s).1.byteAt a = s.byteAt a) ∧
      SameBut [.mem] s (loadRom bytes s).1) ∧
    (3584 < bytes.length → loadRom bytes s = (s, .romTooLarge bytes.length))

/-- The window of `load_rom`: open from a reset to the first step or the first successful load, and only then. While it
is closed a load is refused by name; while it is open a load that fits succeeds and closes it, and one that does not fit
changes nothing and leaves it open; a step closes it; a reset opens it; ticks and key events leave it as it is; so no
transactions without a reset among them open it (derived: R252, decision D22; that a load outside it is refused is U17
of spec file 93, entry 13; that a failed load keeps it open is entry 13). -/
def Obligations.LoadWindow : Prop :=
  (∀ (c : Session) (bytes : List Byte), c.loadWindow = false →
    c.perform (.loadRom bytes) = .refused .loadRomOutsideWindow) ∧
  (∀ (c : Session) (bytes : List Byte), c.loadWindow = true →
    (bytes.length ≤ 3584 → ∃ d, c.perform (.loadRom bytes) = .next (d, .ok) ∧ d.loadWindow = false) ∧
    (3584 < bytes.length → c.perform (.loadRom bytes) = .next (c, .romTooLarge bytes.length))) ∧
  (∀ c : Session, ∃ d r, c.perform .step = .next (d, r) ∧ d.loadWindow = false) ∧
  (∀ (c : Session) (seed : Option Seed), ∃ d, c.perform (.reset seed) = .next (d, .none) ∧ d.loadWindow = true) ∧
  (∀ (c : Session) (t : Transaction), t = .tickTimers ∨ (∃ k, t = .keySet k) ∨ (∃ k, t = .keyClear k) →
    ∃ d, c.perform t = .next (d, .none) ∧ d.loadWindow = c.loadWindow) ∧
  ∀ (c d : Session) (ts : List Transaction) (rs : List Result), c.loadWindow = false → (∀ seed, .reset seed ∉ ts) →
    c.performAll ts = .next (d, rs) → d.loadWindow = false

/-- What reset leaves, for every seed (derived: R36, R250; every zero is decision D18, entry 3, the font decision D12,
its bytes general knowledge, entry 7; the seeding is open, entry 8). -/
def Obligations.ResetLeaves : Prop :=
  ∀ seed : Seed,
    (∀ r, (State.resetWith seed).getV r = 0#8) ∧ (State.resetWith seed).i = 0#16 ∧
    (State.resetWith seed).pc = 0x200#16 ∧ (State.resetWith seed).stack = [] ∧ (State.resetWith seed).dt = 0#8 ∧
    (State.resetWith seed).st = 0#8 ∧ (∀ X Y, (State.resetWith seed).fb.pixel X Y = false) ∧
    (∀ k, (State.resetWith seed).keyDown k = false) ∧ (State.resetWith seed).kedge = none ∧
    (State.resetWith seed).rng = Config.rngSeed seed ∧ (State.resetWith seed).err = none ∧
    (∀ a, 80 ≤ a → (State.resetWith seed).byteAt a = 0#8) ∧
    (∀ a, a < 80 → (State.resetWith seed).byteAt a =
      ([0xF0#8, 0x90#8, 0x90#8, 0x90#8, 0xF0#8, 0x20#8, 0x60#8, 0x20#8, 0x20#8, 0x70#8,
        0xF0#8, 0x10#8, 0xF0#8, 0x80#8, 0xF0#8, 0xF0#8, 0x10#8, 0xF0#8, 0x10#8, 0xF0#8] ++
      [0x90#8, 0x90#8, 0xF0#8, 0x10#8, 0x10#8, 0xF0#8, 0x80#8, 0xF0#8, 0x10#8, 0xF0#8,
        0xF0#8, 0x80#8, 0xF0#8, 0x90#8, 0xF0#8, 0xF0#8, 0x10#8, 0x20#8, 0x40#8, 0x40#8] ++
      [0xF0#8, 0x90#8, 0xF0#8, 0x90#8, 0xF0#8, 0xF0#8, 0x90#8, 0xF0#8, 0x10#8, 0xF0#8,
        0xF0#8, 0x90#8, 0xF0#8, 0x90#8, 0x90#8, 0xE0#8, 0x90#8, 0xE0#8, 0x90#8, 0xE0#8] ++
      [0xF0#8, 0x80#8, 0x80#8, 0x80#8, 0xF0#8, 0xE0#8, 0x90#8, 0x90#8, 0x90#8, 0xE0#8,
        0xF0#8, 0x80#8, 0xF0#8, 0x80#8, 0xF0#8, 0xF0#8, 0x80#8, 0xF0#8, 0x80#8, 0x80#8]).getD a 0#8)

/-- A step straight after reset with no ROM loaded: the word 0x0000 is `SYS 0` and latches `InvalidOpcode` (derived:
R251, with decisions D3 and D18, entries 3 and 6). -/
def Obligations.StepAfterBareReset : Prop :=
  step State.reset = .next { State.reset with err := some (.invalidOpcode 0x0000#16 0x200#16) }

/-! ### The invariant -/

/-- The invariant holds after every reset (derived: R25, R26, R36, R60; the canonical form of memory is the model's own
choice, entry 10). -/
def Obligations.ResetMeetsInvariant : Prop := ∀ seed : Seed, (State.resetWith seed).Inv

/-- Every step keeps the invariant, from every state that meets it, reachable or not: memory stays in its canonical
form inside the address space, the stack holds at most 16 entries, each at most 0xFFE, `PC` is at most 0x10FE (derived:
R25, R26, R60, R161; the canonical form of memory is the model's own choice, entry 10, and of it R60 gives only that
no cell lies beyond the address space). -/
def Obligations.StepKeepsInvariant : Prop := ∀ s t : State, s.Inv → step s = .next t → t.Inv

/-- Every transaction keeps the invariant (derived: R25, R26, R60, R232; the canonical form of memory is the model's own
choice, entry 10). -/
def Obligations.TransactionsKeepInvariant : Prop :=
  ∀ (c d : Session) (a : Transaction) (r : Result), c.machine.Inv → c.perform a = .next (d, r) → d.machine.Inv
end

