-- ==== Sys2Proof/Laws/Decode.lean ====
section
/-! SUPPORT. The fields of an assembled word are the fields it was assembled from, and a word is assembled from its own
fields (R91, R92). -/

namespace Sys2Proof

theorem wordXYN_toNat (op x y n : Nibble) :
    (wordXYN op x y n).toNat = op.toNat * 4096 + x.toNat * 256 + y.toNat * 16 + n.toNat := by
  simp only [wordXYN, BitVec.toNat_append]
  rw [← Nat.shiftLeft_add_eq_or_of_lt n.isLt, ← Nat.shiftLeft_add_eq_or_of_lt y.isLt,
    ← Nat.shiftLeft_add_eq_or_of_lt x.isLt]
  simp only [Nat.shiftLeft_eq]
  omega

theorem wordXKK_toNat (op x : Nibble) (kk : Byte) :
    (wordXKK op x kk).toNat = op.toNat * 4096 + x.toNat * 256 + kk.toNat := by
  simp only [wordXKK, BitVec.toNat_append]
  rw [← Nat.shiftLeft_add_eq_or_of_lt kk.isLt, ← Nat.shiftLeft_add_eq_or_of_lt x.isLt]
  simp only [Nat.shiftLeft_eq]
  omega

theorem wordNNN_toNat (op : Nibble) (nnn : Addr) : (wordNNN op nnn).toNat = op.toNat * 4096 + nnn.toNat := by
  simp only [wordNNN, BitVec.toNat_append]
  rw [← Nat.shiftLeft_add_eq_or_of_lt nnn.isLt]
  simp only [Nat.shiftLeft_eq]

theorem opField_toNat (w : Word) : (opField w).toNat = w.toNat / 4096 % 16 := by
  simp [opField, BitVec.extractLsb'_toNat, Nat.shiftRight_eq_div_pow]

theorem xField_toNat (w : Word) : (xField w).toNat = w.toNat / 256 % 16 := by
  simp [xField, BitVec.extractLsb'_toNat, Nat.shiftRight_eq_div_pow]

theorem yField_toNat (w : Word) : (yField w).toNat = w.toNat / 16 % 16 := by
  simp [yField, BitVec.extractLsb'_toNat, Nat.shiftRight_eq_div_pow]

theorem nField_toNat (w : Word) : (nField w).toNat = w.toNat % 16 := by
  simp [nField, BitVec.extractLsb'_toNat]

theorem kkField_toNat (w : Word) : (kkField w).toNat = w.toNat % 256 := by
  simp [kkField, BitVec.extractLsb'_toNat]

theorem nnnField_toNat (w : Word) : (nnnField w).toNat = w.toNat % 4096 := by
  simp [nnnField, BitVec.extractLsb'_toNat]

@[simp] theorem opField_wordXYN (op x y n : Nibble) : opField (wordXYN op x y n) = op := by
  apply BitVec.eq_of_toNat_eq
  rw [opField_toNat, wordXYN_toNat]
  omega

@[simp] theorem xField_wordXYN (op x y n : Nibble) : xField (wordXYN op x y n) = x := by
  apply BitVec.eq_of_toNat_eq
  rw [xField_toNat, wordXYN_toNat]
  omega

@[simp] theorem yField_wordXYN (op x y n : Nibble) : yField (wordXYN op x y n) = y := by
  apply BitVec.eq_of_toNat_eq
  rw [yField_toNat, wordXYN_toNat]
  omega

@[simp] theorem nField_wordXYN (op x y n : Nibble) : nField (wordXYN op x y n) = n := by
  apply BitVec.eq_of_toNat_eq
  rw [nField_toNat, wordXYN_toNat]
  omega

@[simp] theorem opField_wordXKK (op x : Nibble) (kk : Byte) : opField (wordXKK op x kk) = op := by
  apply BitVec.eq_of_toNat_eq
  rw [opField_toNat, wordXKK_toNat]
  omega

@[simp] theorem xField_wordXKK (op x : Nibble) (kk : Byte) : xField (wordXKK op x kk) = x := by
  apply BitVec.eq_of_toNat_eq
  rw [xField_toNat, wordXKK_toNat]
  omega

@[simp] theorem kkField_wordXKK (op x : Nibble) (kk : Byte) : kkField (wordXKK op x kk) = kk := by
  apply BitVec.eq_of_toNat_eq
  rw [kkField_toNat, wordXKK_toNat]
  omega

@[simp] theorem opField_wordNNN (op : Nibble) (nnn : Addr) : opField (wordNNN op nnn) = op := by
  apply BitVec.eq_of_toNat_eq
  rw [opField_toNat, wordNNN_toNat]
  omega

@[simp] theorem nnnField_wordNNN (op : Nibble) (nnn : Addr) : nnnField (wordNNN op nnn) = nnn := by
  apply BitVec.eq_of_toNat_eq
  rw [nnnField_toNat, wordNNN_toNat]
  omega

/-- A word is the one its four digits make. -/
theorem wordXYN_fields (w : Word) : wordXYN (opField w) (xField w) (yField w) (nField w) = w := by
  apply BitVec.eq_of_toNat_eq
  rw [wordXYN_toNat, opField_toNat, xField_toNat, yField_toNat, nField_toNat]
  omega

/-- A word is the one its opcode digit, `x` and `kk` make. -/
theorem wordXKK_fields (w : Word) : wordXKK (opField w) (xField w) (kkField w) = w := by
  apply BitVec.eq_of_toNat_eq
  rw [wordXKK_toNat, opField_toNat, xField_toNat, kkField_toNat]
  omega

/-- A word is the one its opcode digit and `nnn` make. -/
theorem wordNNN_fields (w : Word) : wordNNN (opField w) (nnnField w) = w := by
  apply BitVec.eq_of_toNat_eq
  rw [wordNNN_toNat, opField_toNat, nnnField_toNat]
  omega

/-- The two bytes of a word, put together again (R64). -/
theorem wordOfBytes_toNat (hi lo : Byte) : (wordOfBytes hi lo).toNat = hi.toNat * 256 + lo.toNat := by
  simp only [wordOfBytes, BitVec.toNat_append]
  rw [← Nat.shiftLeft_add_eq_or_of_lt lo.isLt]
  simp only [Nat.shiftLeft_eq]

/-- Laying a word out as bytes and reading it back gives the word (R64). -/
theorem wordOfBytes_bytesOfWord (w : Word) :
    wordOfBytes ((bytesOfWord w).getD 0 0#8) ((bytesOfWord w).getD 1 0#8) = w := by
  apply BitVec.eq_of_toNat_eq
  rw [wordOfBytes_toNat]
  simp [bytesOfWord, BitVec.extractLsb'_toNat, Nat.shiftRight_eq_div_pow]
  omega

end Sys2Proof
end

