-- ==== Sys2Proof/Laws/State.lean ====
section
/-! SUPPORT. The small lemmas of the state's updates: one for each field and each update, so that no later proof unfolds
a record update. -/

namespace Sys2Proof.Machine

/-! ### setV -/

@[simp] theorem State.setV_mem (s : State) (r : Nibble) (b : Byte) : (s.setV r b).mem = s.mem := rfl
@[simp] theorem State.setV_v (s : State) (r : Nibble) (b : Byte) : (s.setV r b).v = s.v.set r.toNat b r.isLt := rfl
@[simp] theorem State.setV_i (s : State) (r : Nibble) (b : Byte) : (s.setV r b).i = s.i := rfl
@[simp] theorem State.setV_pc (s : State) (r : Nibble) (b : Byte) : (s.setV r b).pc = s.pc := rfl
@[simp] theorem State.setV_stack (s : State) (r : Nibble) (b : Byte) : (s.setV r b).stack = s.stack := rfl
@[simp] theorem State.setV_dt (s : State) (r : Nibble) (b : Byte) : (s.setV r b).dt = s.dt := rfl
@[simp] theorem State.setV_st (s : State) (r : Nibble) (b : Byte) : (s.setV r b).st = s.st := rfl
@[simp] theorem State.setV_fb (s : State) (r : Nibble) (b : Byte) : (s.setV r b).fb = s.fb := rfl
@[simp] theorem State.setV_key (s : State) (r : Nibble) (b : Byte) : (s.setV r b).key = s.key := rfl
@[simp] theorem State.setV_kedge (s : State) (r : Nibble) (b : Byte) : (s.setV r b).kedge = s.kedge := rfl
@[simp] theorem State.setV_rng (s : State) (r : Nibble) (b : Byte) : (s.setV r b).rng = s.rng := rfl
@[simp] theorem State.setV_err (s : State) (r : Nibble) (b : Byte) : (s.setV r b).err = s.err := rfl

@[simp] theorem State.setV_byteAt (s : State) (r : Nibble) (b : Byte) (a' : Nat) : (s.setV r b).byteAt a' = s.byteAt a' := rfl
@[simp] theorem State.setV_keyDown (s : State) (r : Nibble) (b : Byte) (q : Nibble) : (s.setV r b).keyDown q = s.keyDown q := rfl

/-! ### setI -/

@[simp] theorem State.setI_mem (s : State) (a : Word) : (s.setI a).mem = s.mem := rfl
@[simp] theorem State.setI_v (s : State) (a : Word) : (s.setI a).v = s.v := rfl
@[simp] theorem State.setI_i (s : State) (a : Word) : (s.setI a).i = a := rfl
@[simp] theorem State.setI_pc (s : State) (a : Word) : (s.setI a).pc = s.pc := rfl
@[simp] theorem State.setI_stack (s : State) (a : Word) : (s.setI a).stack = s.stack := rfl
@[simp] theorem State.setI_dt (s : State) (a : Word) : (s.setI a).dt = s.dt := rfl
@[simp] theorem State.setI_st (s : State) (a : Word) : (s.setI a).st = s.st := rfl
@[simp] theorem State.setI_fb (s : State) (a : Word) : (s.setI a).fb = s.fb := rfl
@[simp] theorem State.setI_key (s : State) (a : Word) : (s.setI a).key = s.key := rfl
@[simp] theorem State.setI_kedge (s : State) (a : Word) : (s.setI a).kedge = s.kedge := rfl
@[simp] theorem State.setI_rng (s : State) (a : Word) : (s.setI a).rng = s.rng := rfl
@[simp] theorem State.setI_err (s : State) (a : Word) : (s.setI a).err = s.err := rfl

@[simp] theorem State.setI_getV (s : State) (a : Word) (q : Nibble) : (s.setI a).getV q = s.getV q := rfl
@[simp] theorem State.setI_byteAt (s : State) (a : Word) (a' : Nat) : (s.setI a).byteAt a' = s.byteAt a' := rfl
@[simp] theorem State.setI_keyDown (s : State) (a : Word) (q : Nibble) : (s.setI a).keyDown q = s.keyDown q := rfl

/-! ### setPc -/

@[simp] theorem State.setPc_mem (s : State) (a : Word) : (s.setPc a).mem = s.mem := rfl
@[simp] theorem State.setPc_v (s : State) (a : Word) : (s.setPc a).v = s.v := rfl
@[simp] theorem State.setPc_i (s : State) (a : Word) : (s.setPc a).i = s.i := rfl
@[simp] theorem State.setPc_pc (s : State) (a : Word) : (s.setPc a).pc = a := rfl
@[simp] theorem State.setPc_stack (s : State) (a : Word) : (s.setPc a).stack = s.stack := rfl
@[simp] theorem State.setPc_dt (s : State) (a : Word) : (s.setPc a).dt = s.dt := rfl
@[simp] theorem State.setPc_st (s : State) (a : Word) : (s.setPc a).st = s.st := rfl
@[simp] theorem State.setPc_fb (s : State) (a : Word) : (s.setPc a).fb = s.fb := rfl
@[simp] theorem State.setPc_key (s : State) (a : Word) : (s.setPc a).key = s.key := rfl
@[simp] theorem State.setPc_kedge (s : State) (a : Word) : (s.setPc a).kedge = s.kedge := rfl
@[simp] theorem State.setPc_rng (s : State) (a : Word) : (s.setPc a).rng = s.rng := rfl
@[simp] theorem State.setPc_err (s : State) (a : Word) : (s.setPc a).err = s.err := rfl

@[simp] theorem State.setPc_getV (s : State) (a : Word) (q : Nibble) : (s.setPc a).getV q = s.getV q := rfl
@[simp] theorem State.setPc_byteAt (s : State) (a : Word) (a' : Nat) : (s.setPc a).byteAt a' = s.byteAt a' := rfl
@[simp] theorem State.setPc_keyDown (s : State) (a : Word) (q : Nibble) : (s.setPc a).keyDown q = s.keyDown q := rfl

/-! ### setStack -/

@[simp] theorem State.setStack_mem (s : State) (l : List Word) : (s.setStack l).mem = s.mem := rfl
@[simp] theorem State.setStack_v (s : State) (l : List Word) : (s.setStack l).v = s.v := rfl
@[simp] theorem State.setStack_i (s : State) (l : List Word) : (s.setStack l).i = s.i := rfl
@[simp] theorem State.setStack_pc (s : State) (l : List Word) : (s.setStack l).pc = s.pc := rfl
@[simp] theorem State.setStack_stack (s : State) (l : List Word) : (s.setStack l).stack = l := rfl
@[simp] theorem State.setStack_dt (s : State) (l : List Word) : (s.setStack l).dt = s.dt := rfl
@[simp] theorem State.setStack_st (s : State) (l : List Word) : (s.setStack l).st = s.st := rfl
@[simp] theorem State.setStack_fb (s : State) (l : List Word) : (s.setStack l).fb = s.fb := rfl
@[simp] theorem State.setStack_key (s : State) (l : List Word) : (s.setStack l).key = s.key := rfl
@[simp] theorem State.setStack_kedge (s : State) (l : List Word) : (s.setStack l).kedge = s.kedge := rfl
@[simp] theorem State.setStack_rng (s : State) (l : List Word) : (s.setStack l).rng = s.rng := rfl
@[simp] theorem State.setStack_err (s : State) (l : List Word) : (s.setStack l).err = s.err := rfl

@[simp] theorem State.setStack_getV (s : State) (l : List Word) (q : Nibble) : (s.setStack l).getV q = s.getV q := rfl
@[simp] theorem State.setStack_byteAt (s : State) (l : List Word) (a' : Nat) : (s.setStack l).byteAt a' = s.byteAt a' := rfl
@[simp] theorem State.setStack_keyDown (s : State) (l : List Word) (q : Nibble) : (s.setStack l).keyDown q = s.keyDown q := rfl

/-! ### setDt -/

@[simp] theorem State.setDt_mem (s : State) (b : Byte) : (s.setDt b).mem = s.mem := rfl
@[simp] theorem State.setDt_v (s : State) (b : Byte) : (s.setDt b).v = s.v := rfl
@[simp] theorem State.setDt_i (s : State) (b : Byte) : (s.setDt b).i = s.i := rfl
@[simp] theorem State.setDt_pc (s : State) (b : Byte) : (s.setDt b).pc = s.pc := rfl
@[simp] theorem State.setDt_stack (s : State) (b : Byte) : (s.setDt b).stack = s.stack := rfl
@[simp] theorem State.setDt_dt (s : State) (b : Byte) : (s.setDt b).dt = b := rfl
@[simp] theorem State.setDt_st (s : State) (b : Byte) : (s.setDt b).st = s.st := rfl
@[simp] theorem State.setDt_fb (s : State) (b : Byte) : (s.setDt b).fb = s.fb := rfl
@[simp] theorem State.setDt_key (s : State) (b : Byte) : (s.setDt b).key = s.key := rfl
@[simp] theorem State.setDt_kedge (s : State) (b : Byte) : (s.setDt b).kedge = s.kedge := rfl
@[simp] theorem State.setDt_rng (s : State) (b : Byte) : (s.setDt b).rng = s.rng := rfl
@[simp] theorem State.setDt_err (s : State) (b : Byte) : (s.setDt b).err = s.err := rfl

@[simp] theorem State.setDt_getV (s : State) (b : Byte) (q : Nibble) : (s.setDt b).getV q = s.getV q := rfl
@[simp] theorem State.setDt_byteAt (s : State) (b : Byte) (a' : Nat) : (s.setDt b).byteAt a' = s.byteAt a' := rfl
@[simp] theorem State.setDt_keyDown (s : State) (b : Byte) (q : Nibble) : (s.setDt b).keyDown q = s.keyDown q := rfl

/-! ### setSt -/

@[simp] theorem State.setSt_mem (s : State) (b : Byte) : (s.setSt b).mem = s.mem := rfl
@[simp] theorem State.setSt_v (s : State) (b : Byte) : (s.setSt b).v = s.v := rfl
@[simp] theorem State.setSt_i (s : State) (b : Byte) : (s.setSt b).i = s.i := rfl
@[simp] theorem State.setSt_pc (s : State) (b : Byte) : (s.setSt b).pc = s.pc := rfl
@[simp] theorem State.setSt_stack (s : State) (b : Byte) : (s.setSt b).stack = s.stack := rfl
@[simp] theorem State.setSt_dt (s : State) (b : Byte) : (s.setSt b).dt = s.dt := rfl
@[simp] theorem State.setSt_st (s : State) (b : Byte) : (s.setSt b).st = b := rfl
@[simp] theorem State.setSt_fb (s : State) (b : Byte) : (s.setSt b).fb = s.fb := rfl
@[simp] theorem State.setSt_key (s : State) (b : Byte) : (s.setSt b).key = s.key := rfl
@[simp] theorem State.setSt_kedge (s : State) (b : Byte) : (s.setSt b).kedge = s.kedge := rfl
@[simp] theorem State.setSt_rng (s : State) (b : Byte) : (s.setSt b).rng = s.rng := rfl
@[simp] theorem State.setSt_err (s : State) (b : Byte) : (s.setSt b).err = s.err := rfl

@[simp] theorem State.setSt_getV (s : State) (b : Byte) (q : Nibble) : (s.setSt b).getV q = s.getV q := rfl
@[simp] theorem State.setSt_byteAt (s : State) (b : Byte) (a' : Nat) : (s.setSt b).byteAt a' = s.byteAt a' := rfl
@[simp] theorem State.setSt_keyDown (s : State) (b : Byte) (q : Nibble) : (s.setSt b).keyDown q = s.keyDown q := rfl

/-! ### setFb -/

@[simp] theorem State.setFb_mem (s : State) (f : Framebuffer) : (s.setFb f).mem = s.mem := rfl
@[simp] theorem State.setFb_v (s : State) (f : Framebuffer) : (s.setFb f).v = s.v := rfl
@[simp] theorem State.setFb_i (s : State) (f : Framebuffer) : (s.setFb f).i = s.i := rfl
@[simp] theorem State.setFb_pc (s : State) (f : Framebuffer) : (s.setFb f).pc = s.pc := rfl
@[simp] theorem State.setFb_stack (s : State) (f : Framebuffer) : (s.setFb f).stack = s.stack := rfl
@[simp] theorem State.setFb_dt (s : State) (f : Framebuffer) : (s.setFb f).dt = s.dt := rfl
@[simp] theorem State.setFb_st (s : State) (f : Framebuffer) : (s.setFb f).st = s.st := rfl
@[simp] theorem State.setFb_fb (s : State) (f : Framebuffer) : (s.setFb f).fb = f := rfl
@[simp] theorem State.setFb_key (s : State) (f : Framebuffer) : (s.setFb f).key = s.key := rfl
@[simp] theorem State.setFb_kedge (s : State) (f : Framebuffer) : (s.setFb f).kedge = s.kedge := rfl
@[simp] theorem State.setFb_rng (s : State) (f : Framebuffer) : (s.setFb f).rng = s.rng := rfl
@[simp] theorem State.setFb_err (s : State) (f : Framebuffer) : (s.setFb f).err = s.err := rfl

@[simp] theorem State.setFb_getV (s : State) (f : Framebuffer) (q : Nibble) : (s.setFb f).getV q = s.getV q := rfl
@[simp] theorem State.setFb_byteAt (s : State) (f : Framebuffer) (a' : Nat) : (s.setFb f).byteAt a' = s.byteAt a' := rfl
@[simp] theorem State.setFb_keyDown (s : State) (f : Framebuffer) (q : Nibble) : (s.setFb f).keyDown q = s.keyDown q := rfl

/-! ### setKedge -/

@[simp] theorem State.setKedge_mem (s : State) (e : Option Nibble) : (s.setKedge e).mem = s.mem := rfl
@[simp] theorem State.setKedge_v (s : State) (e : Option Nibble) : (s.setKedge e).v = s.v := rfl
@[simp] theorem State.setKedge_i (s : State) (e : Option Nibble) : (s.setKedge e).i = s.i := rfl
@[simp] theorem State.setKedge_pc (s : State) (e : Option Nibble) : (s.setKedge e).pc = s.pc := rfl
@[simp] theorem State.setKedge_stack (s : State) (e : Option Nibble) : (s.setKedge e).stack = s.stack := rfl
@[simp] theorem State.setKedge_dt (s : State) (e : Option Nibble) : (s.setKedge e).dt = s.dt := rfl
@[simp] theorem State.setKedge_st (s : State) (e : Option Nibble) : (s.setKedge e).st = s.st := rfl
@[simp] theorem State.setKedge_fb (s : State) (e : Option Nibble) : (s.setKedge e).fb = s.fb := rfl
@[simp] theorem State.setKedge_key (s : State) (e : Option Nibble) : (s.setKedge e).key = s.key := rfl
@[simp] theorem State.setKedge_kedge (s : State) (e : Option Nibble) : (s.setKedge e).kedge = e := rfl
@[simp] theorem State.setKedge_rng (s : State) (e : Option Nibble) : (s.setKedge e).rng = s.rng := rfl
@[simp] theorem State.setKedge_err (s : State) (e : Option Nibble) : (s.setKedge e).err = s.err := rfl

@[simp] theorem State.setKedge_getV (s : State) (e : Option Nibble) (q : Nibble) : (s.setKedge e).getV q = s.getV q := rfl
@[simp] theorem State.setKedge_byteAt (s : State) (e : Option Nibble) (a' : Nat) : (s.setKedge e).byteAt a' = s.byteAt a' := rfl
@[simp] theorem State.setKedge_keyDown (s : State) (e : Option Nibble) (q : Nibble) : (s.setKedge e).keyDown q = s.keyDown q := rfl

/-! ### setRng -/

@[simp] theorem State.setRng_mem (s : State) (g : Config.RngState) : (s.setRng g).mem = s.mem := rfl
@[simp] theorem State.setRng_v (s : State) (g : Config.RngState) : (s.setRng g).v = s.v := rfl
@[simp] theorem State.setRng_i (s : State) (g : Config.RngState) : (s.setRng g).i = s.i := rfl
@[simp] theorem State.setRng_pc (s : State) (g : Config.RngState) : (s.setRng g).pc = s.pc := rfl
@[simp] theorem State.setRng_stack (s : State) (g : Config.RngState) : (s.setRng g).stack = s.stack := rfl
@[simp] theorem State.setRng_dt (s : State) (g : Config.RngState) : (s.setRng g).dt = s.dt := rfl
@[simp] theorem State.setRng_st (s : State) (g : Config.RngState) : (s.setRng g).st = s.st := rfl
@[simp] theorem State.setRng_fb (s : State) (g : Config.RngState) : (s.setRng g).fb = s.fb := rfl
@[simp] theorem State.setRng_key (s : State) (g : Config.RngState) : (s.setRng g).key = s.key := rfl
@[simp] theorem State.setRng_kedge (s : State) (g : Config.RngState) : (s.setRng g).kedge = s.kedge := rfl
@[simp] theorem State.setRng_rng (s : State) (g : Config.RngState) : (s.setRng g).rng = g := rfl
@[simp] theorem State.setRng_err (s : State) (g : Config.RngState) : (s.setRng g).err = s.err := rfl

@[simp] theorem State.setRng_getV (s : State) (g : Config.RngState) (q : Nibble) : (s.setRng g).getV q = s.getV q := rfl
@[simp] theorem State.setRng_byteAt (s : State) (g : Config.RngState) (a' : Nat) : (s.setRng g).byteAt a' = s.byteAt a' := rfl
@[simp] theorem State.setRng_keyDown (s : State) (g : Config.RngState) (q : Nibble) : (s.setRng g).keyDown q = s.keyDown q := rfl

/-! ### setErr -/

@[simp] theorem State.setErr_mem (s : State) (e : Option RunError) : (s.setErr e).mem = s.mem := rfl
@[simp] theorem State.setErr_v (s : State) (e : Option RunError) : (s.setErr e).v = s.v := rfl
@[simp] theorem State.setErr_i (s : State) (e : Option RunError) : (s.setErr e).i = s.i := rfl
@[simp] theorem State.setErr_pc (s : State) (e : Option RunError) : (s.setErr e).pc = s.pc := rfl
@[simp] theorem State.setErr_stack (s : State) (e : Option RunError) : (s.setErr e).stack = s.stack := rfl
@[simp] theorem State.setErr_dt (s : State) (e : Option RunError) : (s.setErr e).dt = s.dt := rfl
@[simp] theorem State.setErr_st (s : State) (e : Option RunError) : (s.setErr e).st = s.st := rfl
@[simp] theorem State.setErr_fb (s : State) (e : Option RunError) : (s.setErr e).fb = s.fb := rfl
@[simp] theorem State.setErr_key (s : State) (e : Option RunError) : (s.setErr e).key = s.key := rfl
@[simp] theorem State.setErr_kedge (s : State) (e : Option RunError) : (s.setErr e).kedge = s.kedge := rfl
@[simp] theorem State.setErr_rng (s : State) (e : Option RunError) : (s.setErr e).rng = s.rng := rfl
@[simp] theorem State.setErr_err (s : State) (e : Option RunError) : (s.setErr e).err = e := rfl

@[simp] theorem State.setErr_getV (s : State) (e : Option RunError) (q : Nibble) : (s.setErr e).getV q = s.getV q := rfl
@[simp] theorem State.setErr_byteAt (s : State) (e : Option RunError) (a' : Nat) : (s.setErr e).byteAt a' = s.byteAt a' := rfl
@[simp] theorem State.setErr_keyDown (s : State) (e : Option RunError) (q : Nibble) : (s.setErr e).keyDown q = s.keyDown q := rfl

/-! ### setMem -/

@[simp] theorem State.setMem_mem (s : State) (m : Memory) : (s.setMem m).mem = m := rfl
@[simp] theorem State.setMem_v (s : State) (m : Memory) : (s.setMem m).v = s.v := rfl
@[simp] theorem State.setMem_i (s : State) (m : Memory) : (s.setMem m).i = s.i := rfl
@[simp] theorem State.setMem_pc (s : State) (m : Memory) : (s.setMem m).pc = s.pc := rfl
@[simp] theorem State.setMem_stack (s : State) (m : Memory) : (s.setMem m).stack = s.stack := rfl
@[simp] theorem State.setMem_dt (s : State) (m : Memory) : (s.setMem m).dt = s.dt := rfl
@[simp] theorem State.setMem_st (s : State) (m : Memory) : (s.setMem m).st = s.st := rfl
@[simp] theorem State.setMem_fb (s : State) (m : Memory) : (s.setMem m).fb = s.fb := rfl
@[simp] theorem State.setMem_key (s : State) (m : Memory) : (s.setMem m).key = s.key := rfl
@[simp] theorem State.setMem_kedge (s : State) (m : Memory) : (s.setMem m).kedge = s.kedge := rfl
@[simp] theorem State.setMem_rng (s : State) (m : Memory) : (s.setMem m).rng = s.rng := rfl
@[simp] theorem State.setMem_err (s : State) (m : Memory) : (s.setMem m).err = s.err := rfl

@[simp] theorem State.setMem_getV (s : State) (m : Memory) (q : Nibble) : (s.setMem m).getV q = s.getV q := rfl
@[simp] theorem State.setMem_keyDown (s : State) (m : Memory) (q : Nibble) : (s.setMem m).keyDown q = s.keyDown q := rfl

/-! ### setKey -/

@[simp] theorem State.setKey_mem (s : State) (k : Nibble) (b : Bool) : (s.setKey k b).mem = s.mem := rfl
@[simp] theorem State.setKey_v (s : State) (k : Nibble) (b : Bool) : (s.setKey k b).v = s.v := rfl
@[simp] theorem State.setKey_i (s : State) (k : Nibble) (b : Bool) : (s.setKey k b).i = s.i := rfl
@[simp] theorem State.setKey_pc (s : State) (k : Nibble) (b : Bool) : (s.setKey k b).pc = s.pc := rfl
@[simp] theorem State.setKey_stack (s : State) (k : Nibble) (b : Bool) : (s.setKey k b).stack = s.stack := rfl
@[simp] theorem State.setKey_dt (s : State) (k : Nibble) (b : Bool) : (s.setKey k b).dt = s.dt := rfl
@[simp] theorem State.setKey_st (s : State) (k : Nibble) (b : Bool) : (s.setKey k b).st = s.st := rfl
@[simp] theorem State.setKey_fb (s : State) (k : Nibble) (b : Bool) : (s.setKey k b).fb = s.fb := rfl
@[simp] theorem State.setKey_key (s : State) (k : Nibble) (b : Bool) : (s.setKey k b).key = s.key.set k.toNat b k.isLt := rfl
@[simp] theorem State.setKey_kedge (s : State) (k : Nibble) (b : Bool) : (s.setKey k b).kedge = s.kedge := rfl
@[simp] theorem State.setKey_rng (s : State) (k : Nibble) (b : Bool) : (s.setKey k b).rng = s.rng := rfl
@[simp] theorem State.setKey_err (s : State) (k : Nibble) (b : Bool) : (s.setKey k b).err = s.err := rfl

@[simp] theorem State.setKey_getV (s : State) (k : Nibble) (b : Bool) (q : Nibble) : (s.setKey k b).getV q = s.getV q := rfl
@[simp] theorem State.setKey_byteAt (s : State) (k : Nibble) (b : Bool) (a' : Nat) : (s.setKey k b).byteAt a' = s.byteAt a' := rfl

/-! ### advance -/

@[simp] theorem State.advance_mem (s : State) : (s.advance).mem = s.mem := rfl
@[simp] theorem State.advance_v (s : State) : (s.advance).v = s.v := rfl
@[simp] theorem State.advance_i (s : State) : (s.advance).i = s.i := rfl
@[simp] theorem State.advance_pc (s : State) : (s.advance).pc = s.pc + 2#16 := rfl
@[simp] theorem State.advance_stack (s : State) : (s.advance).stack = s.stack := rfl
@[simp] theorem State.advance_dt (s : State) : (s.advance).dt = s.dt := rfl
@[simp] theorem State.advance_st (s : State) : (s.advance).st = s.st := rfl
@[simp] theorem State.advance_fb (s : State) : (s.advance).fb = s.fb := rfl
@[simp] theorem State.advance_key (s : State) : (s.advance).key = s.key := rfl
@[simp] theorem State.advance_kedge (s : State) : (s.advance).kedge = s.kedge := rfl
@[simp] theorem State.advance_rng (s : State) : (s.advance).rng = s.rng := rfl
@[simp] theorem State.advance_err (s : State) : (s.advance).err = s.err := rfl

@[simp] theorem State.advance_getV (s : State) (q : Nibble) : (s.advance).getV q = s.getV q := rfl
@[simp] theorem State.advance_byteAt (s : State) (a' : Nat) : (s.advance).byteAt a' = s.byteAt a' := rfl
@[simp] theorem State.advance_keyDown (s : State) (q : Nibble) : (s.advance).keyDown q = s.keyDown q := rfl

/-! ### push -/

@[simp] theorem State.push_mem (s : State) (a : Word) : (s.push a).mem = s.mem := rfl
@[simp] theorem State.push_v (s : State) (a : Word) : (s.push a).v = s.v := rfl
@[simp] theorem State.push_i (s : State) (a : Word) : (s.push a).i = s.i := rfl
@[simp] theorem State.push_pc (s : State) (a : Word) : (s.push a).pc = s.pc := rfl
@[simp] theorem State.push_stack (s : State) (a : Word) : (s.push a).stack = s.stack ++ [a] := rfl
@[simp] theorem State.push_dt (s : State) (a : Word) : (s.push a).dt = s.dt := rfl
@[simp] theorem State.push_st (s : State) (a : Word) : (s.push a).st = s.st := rfl
@[simp] theorem State.push_fb (s : State) (a : Word) : (s.push a).fb = s.fb := rfl
@[simp] theorem State.push_key (s : State) (a : Word) : (s.push a).key = s.key := rfl
@[simp] theorem State.push_kedge (s : State) (a : Word) : (s.push a).kedge = s.kedge := rfl
@[simp] theorem State.push_rng (s : State) (a : Word) : (s.push a).rng = s.rng := rfl
@[simp] theorem State.push_err (s : State) (a : Word) : (s.push a).err = s.err := rfl

@[simp] theorem State.push_getV (s : State) (a : Word) (q : Nibble) : (s.push a).getV q = s.getV q := rfl
@[simp] theorem State.push_byteAt (s : State) (a : Word) (a' : Nat) : (s.push a).byteAt a' = s.byteAt a' := rfl
@[simp] theorem State.push_keyDown (s : State) (a : Word) (q : Nibble) : (s.push a).keyDown q = s.keyDown q := rfl

/-! ### pop -/

@[simp] theorem State.pop_mem (s : State) : (s.pop).mem = s.mem := rfl
@[simp] theorem State.pop_v (s : State) : (s.pop).v = s.v := rfl
@[simp] theorem State.pop_i (s : State) : (s.pop).i = s.i := rfl
@[simp] theorem State.pop_pc (s : State) : (s.pop).pc = s.pc := rfl
@[simp] theorem State.pop_stack (s : State) : (s.pop).stack = s.stack.dropLast := rfl
@[simp] theorem State.pop_dt (s : State) : (s.pop).dt = s.dt := rfl
@[simp] theorem State.pop_st (s : State) : (s.pop).st = s.st := rfl
@[simp] theorem State.pop_fb (s : State) : (s.pop).fb = s.fb := rfl
@[simp] theorem State.pop_key (s : State) : (s.pop).key = s.key := rfl
@[simp] theorem State.pop_kedge (s : State) : (s.pop).kedge = s.kedge := rfl
@[simp] theorem State.pop_rng (s : State) : (s.pop).rng = s.rng := rfl
@[simp] theorem State.pop_err (s : State) : (s.pop).err = s.err := rfl

@[simp] theorem State.pop_getV (s : State) (q : Nibble) : (s.pop).getV q = s.getV q := rfl
@[simp] theorem State.pop_byteAt (s : State) (a' : Nat) : (s.pop).byteAt a' = s.byteAt a' := rfl
@[simp] theorem State.pop_keyDown (s : State) (q : Nibble) : (s.pop).keyDown q = s.keyDown q := rfl

/-! ### storeAtI -/

@[simp] theorem State.storeAtI_mem (s : State) (bs : List Byte) : (s.storeAtI bs).mem = s.mem.writeBytes s.i.toNat bs := rfl
@[simp] theorem State.storeAtI_v (s : State) (bs : List Byte) : (s.storeAtI bs).v = s.v := rfl
@[simp] theorem State.storeAtI_i (s : State) (bs : List Byte) : (s.storeAtI bs).i = s.i := rfl
@[simp] theorem State.storeAtI_pc (s : State) (bs : List Byte) : (s.storeAtI bs).pc = s.pc := rfl
@[simp] theorem State.storeAtI_stack (s : State) (bs : List Byte) : (s.storeAtI bs).stack = s.stack := rfl
@[simp] theorem State.storeAtI_dt (s : State) (bs : List Byte) : (s.storeAtI bs).dt = s.dt := rfl
@[simp] theorem State.storeAtI_st (s : State) (bs : List Byte) : (s.storeAtI bs).st = s.st := rfl
@[simp] theorem State.storeAtI_fb (s : State) (bs : List Byte) : (s.storeAtI bs).fb = s.fb := rfl
@[simp] theorem State.storeAtI_key (s : State) (bs : List Byte) : (s.storeAtI bs).key = s.key := rfl
@[simp] theorem State.storeAtI_kedge (s : State) (bs : List Byte) : (s.storeAtI bs).kedge = s.kedge := rfl
@[simp] theorem State.storeAtI_rng (s : State) (bs : List Byte) : (s.storeAtI bs).rng = s.rng := rfl
@[simp] theorem State.storeAtI_err (s : State) (bs : List Byte) : (s.storeAtI bs).err = s.err := rfl

@[simp] theorem State.storeAtI_getV (s : State) (bs : List Byte) (q : Nibble) : (s.storeAtI bs).getV q = s.getV q := rfl
@[simp] theorem State.storeAtI_keyDown (s : State) (bs : List Byte) (q : Nibble) : (s.storeAtI bs).keyDown q = s.keyDown q := rfl

/-! ### The cells of the register file and of the key latch -/

/-- A register reads as the value just written to it, and every other one as before (R21: none aliases another). -/
@[simp] theorem State.setV_getV (s : State) (r q : Nibble) (b : Byte) :
    (s.setV r b).getV q = if q = r then b else s.getV q := by
  have h : (q = r) ↔ r.toNat = q.toNat := by rw [← BitVec.toNat_inj]; exact eq_comm
  simp only [State.getV, State.setV, Vector.getElem_set, h]

/-- A key reads as the level just written to it, and every other one as before. -/
@[simp] theorem State.setKey_keyDown (s : State) (k q : Nibble) (b : Bool) :
    (s.setKey k b).keyDown q = if q = k then b else s.keyDown q := by
  have h : (q = k) ↔ k.toNat = q.toNat := by rw [← BitVec.toNat_inj]; exact eq_comm
  simp only [State.keyDown, State.setKey, Vector.getElem_set, h]

/-- Two register files that agree register by register are equal. -/
theorem State.v_ext {s t : State} (h : ∀ r : Nibble, s.getV r = t.getV r) : s.v = t.v := by
  apply Vector.ext
  intro n hn
  have e : (BitVec.ofNat 4 n).toNat = n := by simp; omega
  simpa only [State.getV, e] using h (BitVec.ofNat 4 n)

/-- The byte of memory at an address, in terms of the memory. -/
theorem State.byteAt_eq (s : State) (a : Nat) : s.byteAt a = s.mem.read a := rfl

end Sys2Proof.Machine
end

