-- ==== Sys2Proof/Laws/Memory.lean ====
section
/-! SUPPORT. The laws of memory: a read after a write, and that every operation keeps the canonical form. -/

namespace Sys2Proof.Machine

/-- Erasing the cell of `a` makes it read as unlisted and leaves every other address alone. -/
theorem Memory.read_erase (m : Memory) (a a' : Nat) :
    (m.erase a).read a' = if a' = a then Memory.unlisted a else m.read a' := by
  induction m with
  | nil => by_cases h : a' = a <;> simp [Memory.erase, Memory.read, h]
  | cons c rest ih =>
    simp only [Memory.erase] at ih
    by_cases hc : c.1 = a
    · by_cases h : a' = a
      · simpa [Memory.erase, List.filter_cons, hc, h] using ih
      · have h2 : ¬ a = a' := fun e => h e.symm
        simpa [Memory.erase, List.filter_cons, Memory.read, hc, h, h2] using ih
    · by_cases h : a' = a
      · subst h
        simpa [Memory.erase, List.filter_cons, Memory.read, hc] using ih
      · simp only [h, if_false] at ih
        simp [Memory.erase, Memory.read, hc, h, ih]

/-- Inserting a cell for an address that has none. -/
theorem Memory.read_insert (m : Memory) (a a' : Nat) (b : Byte) (h : ∀ c ∈ m, c.1 ≠ a) :
    (m.insert a b).read a' = if a' = a then b else m.read a' := by
  induction m with
  | nil =>
    by_cases e : a' = a
    · simp [Memory.insert, Memory.read, e]
    · have e2 : ¬ a = a' := fun x => e x.symm
      simp [Memory.insert, Memory.read, e, e2]
  | cons c rest ih =>
    have hc : c.1 ≠ a := h c List.mem_cons_self
    have ih := ih (fun d hd => h d (List.mem_cons_of_mem _ hd))
    by_cases e : a' = a
    · subst e
      by_cases l : a' < c.1 <;> simp [Memory.insert, Memory.read, l, hc, ih]
    · have e2 : ¬ a = a' := fun x => e x.symm
      by_cases l : a < c.1 <;> simp [Memory.insert, Memory.read, l, e, e2, ih]

theorem Memory.mem_erase {m : Memory} {a : Nat} {c : Host.Cell} (h : c ∈ m.erase a) : c ∈ m ∧ c.1 ≠ a := by
  simpa [Memory.erase] using h

/-- A read after a write: the byte written at its address, every other address as before (R68). -/
theorem Memory.read_write (m : Memory) (a a' : Nat) (b : Byte) :
    (m.write a b).read a' = if a' = a then b else m.read a' := by
  unfold Memory.write
  split
  · rename_i h
    rw [Memory.read_erase, h]
  · rw [Memory.read_insert _ _ _ _ (fun c hc => (Memory.mem_erase hc).2), Memory.read_erase]
    by_cases e : a' = a <;> simp [e]

/-- A read after a block write: byte `a' - a` of the block inside it, every other address as before. -/
theorem Memory.read_writeBytes (m : Memory) (a a' : Nat) (bs : List Byte) :
    (m.writeBytes a bs).read a' =
      if a ≤ a' ∧ a' < a + bs.length then bs.getD (a' - a) 0#8 else m.read a' := by
  induction bs generalizing m a with
  | nil => simp [Memory.writeBytes]
  | cons b rest ih =>
    rw [Memory.writeBytes, ih, Memory.read_write]
    by_cases h1 : a' = a
    · subst h1; simp
    · by_cases h2 : a + 1 ≤ a' ∧ a' < a + 1 + rest.length
      · have h3 : a ≤ a' ∧ a' < a + (b :: rest).length := by simp; omega
        have h4 : a' - a = (a' - (a + 1)) + 1 := by omega
        simp only [h2, h3, and_self, if_true, h4, List.getD_cons_succ]
      · have h3 : ¬ (a ≤ a' ∧ a' < a + (b :: rest).length) := by simp; omega
        simp only [h2, h3, h1, if_false]

/-! ### The canonical form -/

theorem Memory.wf_nil : Memory.wf [] := by simp [Memory.wf]

theorem Memory.wf_erase {m : Memory} (h : m.wf) (a : Nat) : (m.erase a).wf :=
  ⟨h.1.filter _, fun c hc => h.2 c (Memory.mem_erase hc).1⟩

theorem Memory.mem_insert {m : Memory} {a : Nat} {b : Byte} {c : Host.Cell} (h : c ∈ m.insert a b) :
    c = (a, b) ∨ c ∈ m := by
  induction m with
  | nil => simpa [Memory.insert] using h
  | cons d rest ih =>
    unfold Memory.insert at h
    split at h
    · simpa using h
    · rcases List.mem_cons.mp h with h | h
      · exact .inr (h ▸ List.mem_cons_self)
      · rcases ih h with h | h
        · exact .inl h
        · exact .inr (List.mem_cons_of_mem _ h)

theorem Memory.sorted_insert {m : Memory} (h : m.Pairwise (fun c d => c.1 < d.1)) {a : Nat}
    (ha : ∀ c ∈ m, c.1 ≠ a) (b : Byte) : (m.insert a b).Pairwise (fun c d => c.1 < d.1) := by
  induction m with
  | nil => simp [Memory.insert]
  | cons d rest ih =>
    rw [List.pairwise_cons] at h
    unfold Memory.insert
    split
    · rename_i hl
      rw [List.pairwise_cons, List.pairwise_cons]
      refine ⟨fun c hc => ?_, h⟩
      rcases List.mem_cons.mp hc with hc | hc
      · exact hc ▸ hl
      · exact Nat.lt_trans hl (h.1 c hc)
    · rename_i hl
      rw [List.pairwise_cons]
      refine ⟨fun c hc => ?_, ih h.2 (fun c hc => ha c (List.mem_cons_of_mem _ hc))⟩
      rcases Memory.mem_insert hc with hc | hc
      · have := ha d List.mem_cons_self
        subst hc
        show d.1 < a
        omega
      · exact h.1 c hc

/-- A write inside the address space keeps the canonical form. -/
theorem Memory.wf_write {m : Memory} (h : m.wf) {a : Nat} (ha : a < Config.memSize) (b : Byte) :
    (m.write a b).wf := by
  unfold Memory.write
  split
  · exact Memory.wf_erase h a
  · rename_i hb
    have he := Memory.wf_erase h a
    refine ⟨Memory.sorted_insert he.1 (fun c hc => (Memory.mem_erase hc).2) b, fun c hc => ?_⟩
    rcases Memory.mem_insert hc with hc | hc
    · subst hc; exact ⟨ha, hb⟩
    · exact he.2 c hc

/-- A block write inside the address space keeps the canonical form. -/
theorem Memory.wf_writeBytes {m : Memory} (h : m.wf) {a : Nat} (bs : List Byte)
    (ha : bs ≠ [] → a + (bs.length - 1) < Config.memSize) : (m.writeBytes a bs).wf := by
  induction bs generalizing m a with
  | nil => exact h
  | cons b rest ih =>
    have ha' := ha (by simp)
    simp only [List.length_cons, Nat.add_sub_cancel] at ha'
    refine ih (Memory.wf_write h (by omega) b) (fun hr => ?_)
    have : 0 < rest.length := List.length_pos_iff.mpr hr
    omega

/-- Two memories in canonical form that read alike at every address are equal. -/
theorem Memory.ext_of_wf {m m' : Memory} (h : m.wf) (h' : m'.wf) (e : ∀ a, m.read a = m'.read a) : m = m' := by
  have notListed : ∀ (l : Memory) (a : Nat), (∀ c ∈ l, a < c.1) → l.read a = Memory.unlisted a := by
    intro l a hl
    induction l with
    | nil => rfl
    | cons c rest ih =>
      have := hl c List.mem_cons_self
      have hne : ¬ c.1 = a := by omega
      simp only [Memory.read, hne, if_false]
      exact ih (fun d hd => hl d (List.mem_cons_of_mem _ hd))
  have firstRead : ∀ (c : Host.Cell) (l : Memory), Memory.read (c :: l) c.1 = c.2 := by
    intro c l; simp [Memory.read]
  induction m generalizing m' with
  | nil =>
    cases m' with
    | nil => rfl
    | cons d rest =>
      have := e d.1
      rw [firstRead] at this
      exact absurd this.symm (h'.2 d List.mem_cons_self).2
  | cons c rest ih =>
    cases m' with
    | nil =>
      have := e c.1
      rw [firstRead] at this
      exact absurd this (h.2 c List.mem_cons_self).2
    | cons d rest' =>
      have hp := List.pairwise_cons.mp h.1
      have hp' := List.pairwise_cons.mp h'.1
      have hcd : c.1 = d.1 := by
        rcases Nat.lt_trichotomy c.1 d.1 with hl | hl | hl
        · have := e c.1
          rw [firstRead, notListed (d :: rest') c.1] at this
          · exact absurd this (h.2 c List.mem_cons_self).2
          · intro x hx
            rcases List.mem_cons.mp hx with hx | hx
            · exact hx ▸ hl
            · exact Nat.lt_trans hl (hp'.1 x hx)
        · exact hl
        · have := e d.1
          rw [firstRead, notListed (c :: rest) d.1] at this
          · exact absurd this.symm (h'.2 d List.mem_cons_self).2
          · intro x hx
            rcases List.mem_cons.mp hx with hx | hx
            · exact hx ▸ hl
            · exact Nat.lt_trans hl (hp.1 x hx)
      have hv : c.2 = d.2 := by
        have := e c.1
        rw [firstRead, hcd, firstRead] at this
        exact this
      have hc : c = d := Prod.ext hcd hv
      subst hc
      congr 1
      refine ih ⟨hp.2, fun x hx => h.2 x (List.mem_cons_of_mem _ hx)⟩
        ⟨hp'.2, fun x hx => h'.2 x (List.mem_cons_of_mem _ hx)⟩ (fun a => ?_)
      by_cases ha : c.1 = a
      · subst ha
        rw [notListed rest c.1 hp.1, notListed rest' c.1 hp'.1]
      · have := e a
        simpa [Memory.read, ha] using this

end Sys2Proof.Machine
end

