-- ==== Sys2Proof/Laws/Ops.lean ====
section
/-! SUPPORT. What each shared operation can do, said once. -/

namespace Sys2Proof.Machine

/-! ### Raising an error, the range check -/

/-- Raising an error answers a next state that differs in `ERR` only (R206). -/
@[simp] theorem raise_eq (e : RunError) (s : State) : raise e s = .next (s.setErr (some e)) := rfl

/-- An access leaves the address space exactly when it has a byte and its last address is above 0xFFF. -/
theorem leavesMemory_iff (base : Word) (n : Nat) :
    leavesMemory base n = true ↔ 0 < n ∧ 0xFFF < base.toNat + (n - 1) := by
  simp [leavesMemory]

/-- Inside the address space a checked access has its effect. -/
theorem checkedAccess_ok {n : Nat} {s : State} (h : leavesMemory s.i n = false) (body : State) :
    checkedAccess n s body = .next body := by
  simp [checkedAccess, h]

/-- Outside it, it raises `OutOfBounds` and has none of its effect (R66). -/
theorem checkedAccess_raise {n : Nat} {s : State} (h : leavesMemory s.i n = true) (body : State) :
    checkedAccess n s body = .next (s.setErr (some (.outOfBounds s.pc (lowestNonCell s.i)))) := by
  simp [checkedAccess, h]

/-- Everything a checked access can answer. -/
theorem checkedAccess_next {n : Nat} {s body t : State} (h : checkedAccess n s body = .next t) :
    (leavesMemory s.i n = false ∧ t = body) ∨
      (leavesMemory s.i n = true ∧ t = s.setErr (some (.outOfBounds s.pc (lowestNonCell s.i)))) := by
  cases hb : leavesMemory s.i n with
  | false => rw [checkedAccess_ok hb] at h; cases h; exact .inl ⟨rfl, rfl⟩
  | true => rw [checkedAccess_raise hb] at h; cases h; exact .inr ⟨rfl, rfl⟩

/-! ### Register blocks -/

theorem mem_regsUpTo (x r : Nibble) : r ∈ regsUpTo x ↔ r.toNat ≤ x.toNat := by
  have hx := x.isLt
  have hr := r.isLt
  simp only [regsUpTo, List.mem_map, List.mem_range]
  constructor
  · rintro ⟨k, hk, rfl⟩
    simp only [BitVec.toNat_ofNat]
    omega
  · intro h
    exact ⟨r.toNat, by omega, by simp⟩

@[simp] theorem length_regsUpTo (x : Nibble) : (regsUpTo x).length = x.toNat + 1 := by simp [regsUpTo]

/-- The block stored by `LD [I], Vx` holds `V[k]` at offset `k` (R189). -/
theorem getD_map_regsUpTo (x r : Nibble) (h : r.toNat ≤ x.toNat) (f : Nibble → Byte) :
    ((regsUpTo x).map f).getD r.toNat 0#8 = f r := by
  have : r.toNat < x.toNat + 1 := by omega
  simp [regsUpTo, List.getD_eq_getElem?_getD, List.getElem?_map, List.getElem?_range this]

/-- What loading registers from `I` leaves: the listed registers hold their bytes, the rest is as before (R190). -/
theorem State.loadFromI_spec (regs : List Nibble) (s : State) :
    (∀ r, (s.loadFromI regs).getV r = if r ∈ regs then s.byteAt (s.i.toNat + r.toNat) else s.getV r) ∧
      ∃ w : Vector Byte 16, s.loadFromI regs = { s with v := w } := by
  induction regs generalizing s with
  | nil => exact ⟨fun r => by simp [State.loadFromI], s.v, rfl⟩
  | cons q rest ih =>
    have ih := ih (s.setV q (s.byteAt (s.i.toNat + q.toNat)))
    have e : s.loadFromI (q :: rest) = (s.setV q (s.byteAt (s.i.toNat + q.toNat))).loadFromI rest := rfl
    refine ⟨fun r => ?_, ?_⟩
    · rw [e, ih.1]
      by_cases h1 : r ∈ rest
      · simp [h1]
      · by_cases h2 : r = q
        · simp [h2]
        · simp [h1, h2]
    · obtain ⟨w, hw⟩ := ih.2
      exact ⟨w, by rw [e, hw]; rfl⟩

theorem State.loadFromI_getV (s : State) (x r : Nibble) :
    (s.loadFromI (regsUpTo x)).getV r =
      if r.toNat ≤ x.toNat then s.byteAt (s.i.toNat + r.toNat) else s.getV r := by
  rw [(State.loadFromI_spec (regsUpTo x) s).1]
  simp only [mem_regsUpTo]

/-- Bytes stored at `I`: each at its offset, every other address as before (R188, R189). -/
theorem State.storeAtI_byteAt (s : State) (bs : List Byte) (a : Nat) :
    (s.storeAtI bs).byteAt a =
      if s.i.toNat ≤ a ∧ a < s.i.toNat + bs.length then bs.getD (a - s.i.toNat) 0#8 else s.byteAt a :=
  Memory.read_writeBytes _ _ _ _

@[simp] theorem length_bcdDigits (b : Byte) : (bcdDigits b).length = 3 :=
  List.length_eq_three.mpr ⟨_, _, _, rfl⟩

/-! ### Fetch and step -/

/-- The fetch at a legal address: two bytes, the first the high one (R63). -/
theorem fetch_ok {s : State} (h : s.pc.toNat < 0xFFF) :
    fetch s = .ok (wordOfBytes (s.byteAt s.pc.toNat) (s.byteAt (s.pc.toNat + 1))) := by
  have hl : leavesMemory s.pc 2 = false := by simp [leavesMemory]; omega
  simp [fetch, hl]

/-- The fetch from 0xFFF up (R63). -/
theorem fetch_error {s : State} (h : 0xFFF ≤ s.pc.toNat) :
    fetch s = .error (.outOfBounds s.pc (lowestNonCell s.pc)) := by
  have hl : leavesMemory s.pc 2 = true := by simp [leavesMemory]; omega
  simp [fetch, hl]

/-- A halted machine does not change (R206). -/
theorem step_halted {s : State} {e : RunError} (h : s.err = some e) : step s = .next s := by
  simp [step, h]

/-- A step that fetches and decodes an instruction executes it (R200). -/
theorem step_runs {s : State} {i : Instr} (h : s.err = none) (hi : nextInstr s = .ok i) : step s = exec i s := by
  simp [step, h, hi]

/-- A step whose fetch or decode fails raises that error (R200). -/
theorem step_raises {s : State} {e : RunError} (h : s.err = none) (hi : nextInstr s = .error e) :
    step s = .next (s.setErr (some e)) := by
  simp [step, h, hi]

/-- Everything a step can answer: a halted machine is left alone, a failing fetch or decode latches its error, and
otherwise the decoded instruction is executed (R200). -/
theorem step_cases {s t : State} (h : step s = .next t) :
    (s.err.isSome ∧ t = s) ∨
      (s.err = none ∧ ∃ e, nextInstr s = .error e ∧ t = s.setErr (some e)) ∨
      (s.err = none ∧ ∃ i, nextInstr s = .ok i ∧ exec i s = .next t) := by
  cases he : s.err with
  | some e => rw [step_halted he] at h; cases h; exact .inl ⟨rfl, rfl⟩
  | none =>
    cases hn : nextInstr s with
    | error e => rw [step_raises he hn] at h; cases h; exact .inr (.inl ⟨rfl, e, rfl, rfl⟩)
    | ok i => exact .inr (.inr ⟨rfl, i, rfl, by rw [← step_runs he hn]; exact h⟩)

/-- A word that decodes. -/
theorem decodeOrRaise_ok {w : Word} {i : Instr} (h : decode w = .ok i) (pc : Word) : decodeOrRaise w pc = .ok i := by
  simp [decodeOrRaise, h]

/-- A word that does not (R202). -/
theorem decodeOrRaise_error {w : Word} {e : DecodeError} (h : decode w = .error e) (pc : Word) :
    decodeOrRaise w pc = .error (.invalidOpcode w pc) := by
  simp [decodeOrRaise, h]

/-- The instruction at `PC` after a fetch. -/
theorem nextInstr_of_fetch {s : State} {w : Word} (h : fetch s = .ok w) : nextInstr s = decodeOrRaise w s.pc := by
  simp [nextInstr, h]

/-- No instruction from 0xFFF up (R63). -/
theorem nextInstr_error {s : State} (h : 0xFFF ≤ s.pc.toNat) :
    nextInstr s = .error (.outOfBounds s.pc (lowestNonCell s.pc)) := by
  simp [nextInstr, fetch_error h]

/-- Where an instruction or a decode error was found, the fetch was in range (R63). -/
theorem nextInstr_ok_pc {s : State} {i : Instr} (h : nextInstr s = .ok i) : s.pc.toNat < 0xFFF := by
  by_contra hc
  rw [nextInstr_error (by omega)] at h
  cases h

end Sys2Proof.Machine
end

