-- ==== Sys2Proof/Laws/Display.lean ====
section
/-! SUPPORT. The framebuffer's laws, and what drawing a sprite does to every pixel and to the collision bit, said once
for the loop of R140. -/

namespace Sys2Proof.Machine

/-- A pixel reads as flipped after its own toggle and as before after another's. -/
@[simp] theorem Framebuffer.toggle_pixel (f : Framebuffer) (x x' : Column) (y y' : Row) :
    (f.toggle x y).pixel x' y' = ((f.pixel x' y') ^^ (decide (x' = x ∧ y' = y))) := by
  by_cases hy : y = y'
  · subst hy
    by_cases hx : x = x'
    · subst hx; simp [Framebuffer.toggle, Framebuffer.pixel]
    · have h2 : x.val ≠ x'.val := fun e => hx (Fin.ext e)
      have h3 : ¬ x' = x := fun e => hx e.symm
      simp [Framebuffer.toggle, Framebuffer.pixel, h2, h3]
  · have h2 : y.val ≠ y'.val := fun e => hy (Fin.ext e)
    have h3 : ¬ y' = y := fun e => hy e.symm
    simp [Framebuffer.toggle, Framebuffer.pixel, h2, h3]

/-- A cleared framebuffer is all zero (R141). -/
@[simp] theorem Framebuffer.clear_pixel (x : Column) (y : Row) : Framebuffer.clear.pixel x y = false := by
  simp [Framebuffer.clear, Framebuffer.pixel]

/-- Two framebuffers with the same pixels are equal. -/
theorem Framebuffer.ext {f g : Framebuffer} (h : ∀ x y, f.pixel x y = g.pixel x y) : f = g := by
  apply Vector.ext
  intro y hy
  apply Vector.ext
  intro x hx
  exact h ⟨x, hx⟩ ⟨y, hy⟩

/-- Flipping the listed pixels in order, noting whether one of them was lit. -/
def drawCells (cells : List (Column × Row)) (acc : Framebuffer × Bool) : Framebuffer × Bool :=
  cells.foldl (fun a p => (a.1.toggle p.1 p.2, a.2 || a.1.pixel p.1 p.2)) acc

/-- The pixels the 1 bits of one sprite row land on. -/
def rowCells (x0 : Byte) (y : Row) (b : Byte) : List (Column × Row) :=
  ((List.range 8).filter (fun c => spriteBit b c)).map (fun c => (columnOf x0 c, y))

/-- The pixels the 1 bits of the sprite rows land on, the first of them row `r`. -/
def spriteCells (x0 y0 : Byte) (r : Nat) (rows : List Byte) : List (Column × Row) :=
  match rows with
  | [] => []
  | b :: rest => rowCells x0 (rowOf y0 r) b ++ spriteCells x0 y0 (r + 1) rest

theorem drawRow_eq (x0 : Byte) (y : Row) (b : Byte) (acc : Framebuffer × Bool) :
    drawRow x0 y b acc = drawCells (rowCells x0 y b) acc := by
  unfold drawRow drawCells rowCells
  generalize List.range 8 = l
  induction l generalizing acc with
  | nil => rfl
  | cons c rest ih =>
    rw [List.foldl_cons, ih]
    by_cases h : spriteBit b c <;> simp [drawPixel, h]

/-- The loop of R140 flips exactly the sprite's pixels, one after the other. -/
theorem drawRows_eq (x0 y0 : Byte) (r : Nat) (rows : List Byte) (acc : Framebuffer × Bool) :
    drawRows x0 y0 r rows acc = drawCells (spriteCells x0 y0 r rows) acc := by
  induction rows generalizing r acc with
  | nil => rfl
  | cons b rest ih =>
    rw [drawRows, ih, drawRow_eq, spriteCells]
    simp [drawCells]

/-- Flipping pixels none of which is listed twice: a pixel changes exactly when it is listed, and the collision bit is
set exactly when a listed one was lit. -/
theorem drawCells_spec (cells : List (Column × Row)) (hn : cells.Nodup) (acc : Framebuffer × Bool) :
    (∀ x y, (drawCells cells acc).1.pixel x y = ((acc.1.pixel x y) ^^ (decide ((x, y) ∈ cells)))) ∧
      (drawCells cells acc).2 = (acc.2 || cells.any (fun p => acc.1.pixel p.1 p.2)) := by
  induction cells generalizing acc with
  | nil => simp [drawCells]
  | cons p rest ih =>
    obtain ⟨hp, hr⟩ := List.nodup_cons.mp hn
    have ih := ih hr (acc.1.toggle p.1 p.2, acc.2 || acc.1.pixel p.1 p.2)
    have e : drawCells (p :: rest) acc = drawCells rest (acc.1.toggle p.1 p.2, acc.2 || acc.1.pixel p.1 p.2) := rfl
    rw [e]
    refine ⟨fun x y => ?_, ?_⟩
    · rw [ih.1, Framebuffer.toggle_pixel]
      by_cases h1 : (x, y) = p
      · subst h1; simp [hp]
      · have h2 : ¬ (x = p.1 ∧ y = p.2) := fun h => h1 (Prod.ext h.1 h.2)
        simp [h1, h2]
    · rw [ih.2, List.any_cons, Bool.or_assoc]
      congr 2
      have hne : ∀ q ∈ rest, ¬ (q.1 = p.1 ∧ q.2 = p.2) := fun q hq h =>
        hp (by rw [← Prod.ext h.1 h.2]; exact hq)
      rw [Bool.eq_iff_iff, List.any_eq_true, List.any_eq_true]
      constructor <;> rintro ⟨q, hq, hb⟩ <;> refine ⟨q, hq, ?_⟩ <;> simpa [hne q hq] using hb

/-- Which pixels the sprite covers (R142). -/
theorem mem_spriteCells (x0 y0 : Byte) (r : Nat) (rows : List Byte) (x : Column) (y : Row) :
    (x, y) ∈ spriteCells x0 y0 r rows ↔
      ∃ k c, k < rows.length ∧ c < 8 ∧ spriteBit (rows.getD k 0#8) c = true ∧
        columnOf x0 c = x ∧ rowOf y0 (r + k) = y := by
  induction rows generalizing r with
  | nil => simp [spriteCells]
  | cons b rest ih =>
    rw [spriteCells, List.mem_append, ih]
    constructor
    · rintro (h | ⟨k, c, hk, hc, hb, hx, hy⟩)
      · simp only [rowCells, List.mem_map, List.mem_filter, List.mem_range, Prod.mk.injEq] at h
        obtain ⟨c, ⟨hc, hb⟩, hx, hy⟩ := h
        exact ⟨0, c, by simp, hc, by simpa using hb, hx, hy⟩
      · exact ⟨k + 1, c, by simpa using hk, hc, by simpa using hb, hx, by rw [← hy]; congr 1; omega⟩
    · rintro ⟨k, c, hk, hc, hb, hx, hy⟩
      cases k with
      | zero =>
        refine .inl ?_
        simp only [rowCells, List.mem_map, List.mem_filter, List.mem_range, Prod.mk.injEq]
        exact ⟨c, ⟨hc, by simpa using hb⟩, hx, hy⟩
      | succ k =>
        exact .inr ⟨k, c, by simpa using hk, hc, by simpa using hb, hx, by rw [← hy]; congr 1; omega⟩

/-- No two sprite bits of one `DRW` land on the same pixel (R140, corner (d)). -/
theorem nodup_spriteCells (x0 y0 : Byte) (r : Nat) (rows : List Byte) (h : rows.length ≤ 32) :
    (spriteCells x0 y0 r rows).Nodup := by
  induction rows generalizing r with
  | nil => simp [spriteCells]
  | cons b rest ih =>
    simp only [List.length_cons] at h
    rw [spriteCells, List.nodup_append]
    refine ⟨?_, ih (r + 1) (by omega), ?_⟩
    · refine (List.Nodup.filter _ List.nodup_range).map_on ?_
      intro c hc d hd e
      simp only [List.mem_filter, List.mem_range] at hc hd
      have := congrArg (fun p : Column × Row => p.1.val) e
      simp only [columnOf] at this
      omega
    · intro p hp q hq e
      subst e
      simp only [rowCells, List.mem_map, List.mem_filter, List.mem_range] at hp
      obtain ⟨c, -, rfl⟩ := hp
      obtain ⟨k, d, hk, -, -, -, hy⟩ := (mem_spriteCells _ _ _ _ _ _).mp hq
      have := congrArg Fin.val hy
      simp only [rowOf] at this
      omega

end Sys2Proof.Machine
end

