-- ==== Sys2Proof/Laws/Exec.lean ====
section
/-! SUPPORT. The meanings with more than one path, one lemma for each path; the others are equations by definition. -/

namespace Sys2Proof.Machine

/-- `CALL` with room on the stack (R160). -/
theorem execCall_room {s : State} (h : s.stack.length < 16) (nnn : Addr) :
    execCall nnn s = .next ((s.push s.pc).setPc (zextAddr nnn)) := by
  have h' : ¬ 16 ≤ s.stack.length := by omega
  simp [execCall, State.sp, Config.stackDepth, h']

/-- `CALL` on a full stack (R160). -/
theorem execCall_full {s : State} (h : 16 ≤ s.stack.length) (nnn : Addr) :
    execCall nnn s = .next (s.setErr (some (.stackOverflow s.pc 16))) := by
  simp [execCall, State.sp, Config.stackDepth, h]

/-- `RET` with an entry on the stack (R161). -/
theorem execRet_pop {s : State} {r : Word} (h : s.stack.getLast? = some r) :
    execRet s = .next (s.pop.setPc (r + 2#16)) := by
  simp [execRet, h]

/-- `RET` on an empty stack (R161). -/
theorem execRet_empty {s : State} (h : s.stack = []) :
    execRet s = .next (s.setErr (some (.stackUnderflow s.pc))) := by
  have : s.stack.getLast? = none := by rw [h]; rfl
  simp [execRet, this]

/-- `LD Vx, K` with a latched edge (R170). -/
theorem execLdVxK_edge {s : State} {k : Nibble} (h : s.kedge = some k) (x : Nibble) :
    execLdVxK x s = .next ((s.setV x (zextKey k)).setKedge none).advance := by
  simp [execLdVxK, h]

/-- `LD Vx, K` with no latched edge (R170). -/
theorem execLdVxK_wait {s : State} (h : s.kedge = none) (x : Nibble) : execLdVxK x s = .next s := by
  simp [execLdVxK, h]

/-- The step that makes no progress: `LD Vx, K` at `PC` with no latched edge (R170, R231). -/
theorem waitsForKey_iff (s : State) :
    waitsForKey s = true ↔ s.err = none ∧ s.kedge = none ∧ ∃ x, nextInstr s = .ok (.ldVxK x) := by
  unfold waitsForKey
  split
  · rename_i a b c
    simp [a, b, c]
  · rename_i h
    simp only [Bool.false_eq_true, false_iff, not_and, not_exists]
    intro a b x c
    exact h x a c b

end Sys2Proof.Machine
end

