-- ==== Sys2Proof/Laws/PerInstr.lean ====
section
/-! SUPPORT. The family RoundTrip: every well-formed instruction is what its own word decodes to (R94, R95), one lemma
for each constructor. -/

namespace Sys2Proof.Laws.RoundTrip

/-- The word of a well-formed instruction decodes to it. -/
def Statement (i : Instr) : Prop := i.WellFormed = true → decode (encode i) = .ok i

theorem cls : Statement .cls := fun _ => rfl

theorem ret : Statement .ret := fun _ => rfl

theorem sys (nnn : Addr) : Statement (.sys nnn) := by
  intro h
  simp only [Instr.WellFormed, Bool.and_eq_true, bne_iff_ne, ne_eq] at h
  have hne : ∀ c : Addr, ¬ nnn = c → ¬ wordNNN 0x0#4 nnn = wordNNN 0x0#4 c := fun c hc e =>
    hc (by have := congrArg nnnField e; simpa using this)
  have h1 : ¬ wordNNN 0x0#4 nnn = 0x00E0#16 := hne 0x0E0#12 h.1
  have h2 : ¬ wordNNN 0x0#4 nnn = 0x00EE#16 := hne 0x0EE#12 h.2
  simp [encode, decode, decodeOp0, h1, h2]

theorem jp (nnn : Addr) : Statement (.jp nnn) := by
  intro _
  simp [encode, decode]

theorem call (nnn : Addr) : Statement (.call nnn) := by
  intro _
  simp [encode, decode]

theorem seImm (x : Nibble) (kk : Byte) : Statement (.seImm x kk) := by
  intro _
  simp [encode, decode]

theorem sneImm (x : Nibble) (kk : Byte) : Statement (.sneImm x kk) := by
  intro _
  simp [encode, decode]

theorem seReg (x y : Nibble) : Statement (.seReg x y) := by
  intro _
  simp [encode, decode]

theorem ldImm (x : Nibble) (kk : Byte) : Statement (.ldImm x kk) := by
  intro _
  simp [encode, decode]

theorem addImm (x : Nibble) (kk : Byte) : Statement (.addImm x kk) := by
  intro _
  simp [encode, decode]

theorem ldReg (x y : Nibble) : Statement (.ldReg x y) := by
  intro _
  simp [encode, decode, decodeOp8]

theorem orReg (x y : Nibble) : Statement (.orReg x y) := by
  intro _
  simp [encode, decode, decodeOp8]

theorem andReg (x y : Nibble) : Statement (.andReg x y) := by
  intro _
  simp [encode, decode, decodeOp8]

theorem xorReg (x y : Nibble) : Statement (.xorReg x y) := by
  intro _
  simp [encode, decode, decodeOp8]

theorem addReg (x y : Nibble) : Statement (.addReg x y) := by
  intro _
  simp [encode, decode, decodeOp8]

theorem subReg (x y : Nibble) : Statement (.subReg x y) := by
  intro _
  simp [encode, decode, decodeOp8]

theorem shr (x y : Nibble) : Statement (.shr x y) := by
  intro _
  simp [encode, decode, decodeOp8]

theorem subn (x y : Nibble) : Statement (.subn x y) := by
  intro _
  simp [encode, decode, decodeOp8]

theorem shl (x y : Nibble) : Statement (.shl x y) := by
  intro _
  simp [encode, decode, decodeOp8]

theorem sneReg (x y : Nibble) : Statement (.sneReg x y) := by
  intro _
  simp [encode, decode]

theorem ldI (nnn : Addr) : Statement (.ldI nnn) := by
  intro _
  simp [encode, decode]

theorem jpV0 (nnn : Addr) : Statement (.jpV0 nnn) := by
  intro _
  simp [encode, decode]

theorem rnd (x : Nibble) (kk : Byte) : Statement (.rnd x kk) := by
  intro _
  simp [encode, decode]

theorem drw (x y n : Nibble) : Statement (.drw x y n) := by
  intro _
  simp [encode, decode]

theorem skp (x : Nibble) : Statement (.skp x) := by
  intro _
  simp [encode, decode, decodeOpE]

theorem sknp (x : Nibble) : Statement (.sknp x) := by
  intro _
  simp [encode, decode, decodeOpE]

theorem ldVxDt (x : Nibble) : Statement (.ldVxDt x) := by
  intro _
  simp [encode, decode, decodeOpF]

theorem ldVxK (x : Nibble) : Statement (.ldVxK x) := by
  intro _
  simp [encode, decode, decodeOpF]

theorem ldDtVx (x : Nibble) : Statement (.ldDtVx x) := by
  intro _
  simp [encode, decode, decodeOpF]

theorem ldStVx (x : Nibble) : Statement (.ldStVx x) := by
  intro _
  simp [encode, decode, decodeOpF]

theorem addI (x : Nibble) : Statement (.addI x) := by
  intro _
  simp [encode, decode, decodeOpF]

theorem ldF (x : Nibble) : Statement (.ldF x) := by
  intro _
  simp [encode, decode, decodeOpF]

theorem ldB (x : Nibble) : Statement (.ldB x) := by
  intro _
  simp [encode, decode, decodeOpF]

theorem storeRegs (x : Nibble) : Statement (.storeRegs x) := by
  intro _
  simp [encode, decode, decodeOpF]

theorem loadRegs (x : Nibble) : Statement (.loadRegs x) := by
  intro _
  simp [encode, decode, decodeOpF]

end Sys2Proof.Laws.RoundTrip
end

