-- ==== Sys2Proof/Laws/Random.lean ====
section
/-! SUPPORT. The states of `RNG_REF` are never zero (R182). -/

namespace Sys2Proof.Machine

/-- A word that is its own left shift is zero. -/
theorem eq_zero_of_xor_shl {x : BitVec 32} {k : Nat} (hk : 0 < k) (h : x ^^^ (x <<< k) = 0#32) : x = 0#32 := by
  have e : x = x <<< k := BitVec.xor_eq_zero_iff.mp h
  have bits : ∀ n i, i < n → x.getLsbD i = false := by
    intro n
    induction n with
    | zero => intro i hi; omega
    | succ n ih =>
      intro i hi
      rw [e, BitVec.getLsbD_shiftLeft]
      by_cases hik : i < k
      · simp [hik]
      · simp [ih (i - k) (by omega)]
  exact BitVec.eq_of_getLsbD_eq fun i hi => by simp [bits 32 i hi]

/-- A word that is its own right shift is zero. -/
theorem eq_zero_of_xor_shr {x : BitVec 32} {k : Nat} (hk : 0 < k) (h : x ^^^ (x >>> k) = 0#32) : x = 0#32 := by
  have e : x = x >>> k := BitVec.xor_eq_zero_iff.mp h
  have bits : ∀ n i, 32 ≤ i + n → x.getLsbD i = false := by
    intro n
    induction n with
    | zero => intro i hi; exact BitVec.getLsbD_of_ge x i hi
    | succ n ih =>
      intro i hi
      rw [e, BitVec.getLsbD_ushiftRight]
      exact ih (k + i) (by omega)
  exact BitVec.eq_of_getLsbD_eq fun i _ => by simp [bits 32 i (by omega)]

/-- `rng_seed` of `RNG_REF` is never zero. -/
theorem rngRefSeed_ne_zero (seed : Seed) : rngRefSeed seed ≠ 0#32 := by
  unfold rngRefSeed
  dsimp only
  split
  · decide
  · assumption

/-- `rng_next` of `RNG_REF` keeps its state from zero. -/
theorem rngRefNext_ne_zero {g : BitVec 32} (h : g ≠ 0#32) : (rngRefNext g).2 ≠ 0#32 := fun e =>
  h (eq_zero_of_xor_shl (by decide) (eq_zero_of_xor_shr (by decide) (eq_zero_of_xor_shl (by decide) e)))

end Sys2Proof.Machine
end

