-- ==== Sys2Proof/Laws/Transactions.lean ====
section
/-! SUPPORT. What each transaction answers, what a list of them answers, and that the machine under the
decided parameters is the core. -/

namespace Sys2Proof.Machine

/-! ### Transactions -/

@[simp] theorem perform_reset (c : Session) (seed : Option Seed) :
    c.perform (.reset seed) = .next (⟨resetBy seed, true⟩, .none) := rfl
@[simp] theorem perform_tickTimers (c : Session) :
    c.perform .tickTimers = .next (⟨tickTimers c.machine, c.loadWindow⟩, .none) := rfl
@[simp] theorem perform_keySet (c : Session) (k : Nibble) :
    c.perform (.keySet k) = .next (⟨keySet k c.machine, c.loadWindow⟩, .none) := rfl
@[simp] theorem perform_keyClear (c : Session) (k : Nibble) :
    c.perform (.keyClear k) = .next (⟨keyClear k c.machine, c.loadWindow⟩, .none) := rfl

/-- Where a step transaction answers, it goes to the state the step answers (R200). -/
theorem withStatus_next {s : State} {o : Host.Outcome State Fault Refusal} {q : State × Result}
    (h : withStatus s o = .next q) : o = .next q.1 := by
  unfold withStatus at h
  split at h
  · split at h <;> (cases h; rfl)
  · cases h
  · cases h

/-- Where the step transaction of a session answers, the machine goes to the state the step answers. -/
theorem perform_step {c : Session} {q : Session × Result} (h : c.perform .step = .next q) :
    step c.machine = .next q.1.machine := by
  simp only [Session.perform, Session.performWith] at h
  split at h
  · rename_i r hr
    cases h
    exact withStatus_next hr
  · cases h
  · cases h

/-- Where a ROM load answers, the machine is the one `loadRom` leaves. -/
theorem perform_loadRom {c : Session} {bytes : List Byte} {q : Session × Result}
    (h : c.perform (.loadRom bytes) = .next q) : q.1.machine = (loadRom bytes c.machine).1 := by
  simp only [Session.perform, Session.performWith] at h
  split at h
  · cases h; rfl
  · cases h

/-- A ROM load changes nothing but memory (R76). -/
theorem loadRom_state (bytes : List Byte) (s : State) : ∃ m, (loadRom bytes s).1 = s.setMem m := by
  unfold loadRom
  split
  · exact ⟨s.mem, rfl⟩
  · exact ⟨_, rfl⟩

/-- No transactions change nothing. -/
@[simp] theorem performAll_nil (c : Session) : c.performAll [] = .next (c, []) := rfl

/-- A list of transactions that answers is its first one and then the others. -/
theorem performAll_cons {c : Session} {t : Transaction} {ts : List Transaction} {q : Session × List Result}
    (h : c.performAll (t :: ts) = .next q) :
    ∃ r rs, c.perform t = .next r ∧ r.1.performAll ts = .next (q.1, rs) ∧ q.2 = r.2 :: rs := by
  simp only [Session.performAll, performList] at h
  split at h
  · rename_i r hr
    split at h
    · rename_i p hp
      cases h
      exact ⟨r, p.2, hr, hp, rfl⟩
    · cases h
    · cases h
  · cases h
  · cases h

/-! ### The machine under parameters -/

/-- What memory holds after reset with a font at `base` (R31, R36). -/
theorem fontMemory_read (base : Nat) (glyphs : Vector Byte 80) (a : Nat) :
    (fontMemory base glyphs).read a = if base ≤ a ∧ a < base + 80 then glyphs.toList.getD (a - base) 0#8 else 0#8 := by
  simp only [fontMemory, Memory.read_writeBytes, Vector.length_toList, List.length_replicate]
  by_cases h : base ≤ a ∧ a < base + 80
  · simp only [if_pos h]
  · simp only [if_neg h]
    split
    · rw [List.getD_eq_getElem?_getD, List.getElem?_replicate]
      split <;> rfl
    · rename_i h'
      simp only [fontBase] at h'
      have hl : font.length ≤ a - fontBase := by
        rw [show font.length = 80 from rfl, fontBase]
        omega
      rw [Memory.read, Memory.unlisted, List.getD_eq_default _ _ hl, ite_self]

/-- The memory of a reset with a font inside the address space is in its canonical form. -/
theorem fontMemory_wf {base : Nat} (h : base + 80 ≤ Config.memSize) (glyphs : Vector Byte 80) :
    (fontMemory base glyphs).wf :=
  Memory.wf_writeBytes (Memory.wf_writeBytes Memory.wf_nil _ fun _ => by decide) _
    fun _ => by rw [Vector.length_toList]; omega

/-- With the decided font every cell holds what an unlisted one reads as. -/
theorem fontMemory_decided : fontMemory decided.fontBase decided.font = [] := by
  refine Memory.ext_of_wf (fontMemory_wf (by decide) _) Memory.wf_nil fun a => ?_
  rw [fontMemory_read, Memory.read, Memory.unlisted]
  split
  · rename_i h
    rw [if_pos (show fontBase ≤ a from h.1)]
    rfl
  · rename_i h
    have hl : font.length ≤ a - fontBase := by
      rw [show font.length = 80 from rfl, fontBase]
      simp only [decided, fontBase] at h
      omega
    rw [List.getD_eq_default _ _ hl, ite_self]

/-- The core's instruction is the one under the decided parameters. -/
theorem execUnder_decided (i : Instr) (s : State) : execUnder decided i s = exec i s := by cases i <;> rfl

/-- The core's step is the one under the decided parameters. -/
theorem stepUnder_decided (s : State) : stepUnder decided s = step s := by
  cases he : s.err with
  | some e => simp [stepUnder, step, he]
  | none => cases hn : nextInstr s <;> simp [stepUnder, step, he, hn, execUnder_decided]

/-- The core's reset is the one under the decided parameters. -/
theorem resetUnder_decided (seed : Option Seed) : resetUnder decided seed = resetBy seed := by
  unfold resetUnder
  rw [fontMemory_decided]
  cases seed <;> rfl

/-- The core's transactions are those under the decided parameters. -/
theorem performUnder_decided (c : Session) (t : Transaction) : c.performUnder decided t = c.perform t := by
  have hr : resetUnder decided = resetBy := funext resetUnder_decided
  have hs : stepTransactionUnder decided = stepTransaction :=
    funext fun s => congrArg (withStatus s) (stepUnder_decided s)
  simp only [Session.performUnder, Session.perform, hr, hs]

end Sys2Proof.Machine
end

