-- ==== Sys2Proof/Tests/Slice0.lean ====
section
/-! SUPPORT. The model's own tests. Expected values come from spec/95_test_vectors.md (vector ids in the names and
comments) and from the patterns of R95, never from a run of the model. At the end, for every statement of
Certificates/Slice0/Obligations.lean that has hypotheses, a witness that meets them, at the boundary of each clause. -/

namespace Sys2Proof.Tests

open Sys2Proof.Machine

/-- A check on the next state of an outcome; false where there is none. -/
def after (o : Host.Outcome State Fault Refusal) (p : State → Bool) : Bool :=
  match o with
  | .next t => p t
  | .fault _ => false
  | .refused _ => false

/-- The start state of the vectors: after reset. -/
def s0 : State := State.reset

/-- A few registers set. -/
def withRegs (l : List (Nibble × Byte)) : State := l.foldl (fun s p => s.setV p.1 p.2) s0

/-! ### Well-formedness: the one check, and both words it refuses -/

theorem test_wf_refuses_sys_0E0 : (Instr.sys 0x0E0#12).WellFormed = false := by decide
theorem test_wf_refuses_sys_0EE : (Instr.sys 0x0EE#12).WellFormed = false := by decide
theorem test_wf_accepts_sys_0E1 : (Instr.sys 0x0E1#12).WellFormed = true := by decide

/-! ### Decoding: for every row of R95 a word written out from its pattern -/

theorem test_decode_CLS : decode 0x00E0#16 = .ok .cls := by decide
theorem test_decode_RET : decode 0x00EE#16 = .ok .ret := by decide
theorem test_decode_SYS : decode 0x0123#16 = .ok (.sys 0x123#12) := by decide
theorem test_decode_JP : decode 0x1ABC#16 = .ok (.jp 0xABC#12) := by decide
theorem test_decode_CALL : decode 0x220A#16 = .ok (.call 0x20A#12) := by decide
theorem test_decode_SE_imm : decode 0x3A42#16 = .ok (.seImm 0xA#4 0x42#8) := by decide
theorem test_decode_SNE_imm : decode 0x4A42#16 = .ok (.sneImm 0xA#4 0x42#8) := by decide
theorem test_decode_SE_reg : decode 0x5AB0#16 = .ok (.seReg 0xA#4 0xB#4) := by decide
theorem test_decode_LD_imm : decode 0x6A3C#16 = .ok (.ldImm 0xA#4 0x3C#8) := by decide
theorem test_decode_ADD_imm : decode 0x70FF#16 = .ok (.addImm 0x0#4 0xFF#8) := by decide
theorem test_decode_LD_reg : decode 0x8120#16 = .ok (.ldReg 0x1#4 0x2#4) := by decide
theorem test_decode_OR : decode 0x8121#16 = .ok (.orReg 0x1#4 0x2#4) := by decide
theorem test_decode_AND : decode 0x8122#16 = .ok (.andReg 0x1#4 0x2#4) := by decide
theorem test_decode_XOR : decode 0x8123#16 = .ok (.xorReg 0x1#4 0x2#4) := by decide
theorem test_decode_ADD_reg : decode 0x8124#16 = .ok (.addReg 0x1#4 0x2#4) := by decide
theorem test_decode_SUB : decode 0x8125#16 = .ok (.subReg 0x1#4 0x2#4) := by decide
theorem test_decode_SHR : decode 0x8126#16 = .ok (.shr 0x1#4 0x2#4) := by decide
theorem test_decode_SUBN : decode 0x8127#16 = .ok (.subn 0x1#4 0x2#4) := by decide
theorem test_decode_SHL : decode 0x812E#16 = .ok (.shl 0x1#4 0x2#4) := by decide
theorem test_decode_SNE_reg : decode 0x9AB0#16 = .ok (.sneReg 0xA#4 0xB#4) := by decide
theorem test_decode_LD_I : decode 0xA22A#16 = .ok (.ldI 0x22A#12) := by decide
theorem test_decode_JP_V0 : decode 0xB300#16 = .ok (.jpV0 0x300#12) := by decide
theorem test_decode_RND : decode 0xC10F#16 = .ok (.rnd 0x1#4 0x0F#8) := by decide
theorem test_decode_DRW : decode 0xD123#16 = .ok (.drw 0x1#4 0x2#4 0x3#4) := by decide
theorem test_decode_SKP : decode 0xE19E#16 = .ok (.skp 0x1#4) := by decide
theorem test_decode_SKNP : decode 0xE1A1#16 = .ok (.sknp 0x1#4) := by decide
theorem test_decode_LD_Vx_DT : decode 0xF107#16 = .ok (.ldVxDt 0x1#4) := by decide
theorem test_decode_LD_Vx_K : decode 0xF30A#16 = .ok (.ldVxK 0x3#4) := by decide
theorem test_decode_LD_DT_Vx : decode 0xF215#16 = .ok (.ldDtVx 0x2#4) := by decide
theorem test_decode_LD_ST_Vx : decode 0xF218#16 = .ok (.ldStVx 0x2#4) := by decide
theorem test_decode_ADD_I : decode 0xF11E#16 = .ok (.addI 0x1#4) := by decide
theorem test_decode_LD_F : decode 0xF029#16 = .ok (.ldF 0x0#4) := by decide
theorem test_decode_LD_B : decode 0xF033#16 = .ok (.ldB 0x0#4) := by decide
theorem test_decode_LD_store : decode 0xF155#16 = .ok (.storeRegs 0x1#4) := by decide
theorem test_decode_LD_load : decode 0xF265#16 = .ok (.loadRegs 0x2#4) := by decide

/-- X6: every hole of the map nearest to a legal pattern. -/
theorem test_decode_refuses_holes :
    [0x5121#16, 0x512F#16, 0x9121#16, 0x8128#16, 0x8129#16, 0x812F#16, 0xE100#16, 0xE09D#16, 0xE19F#16, 0xE1A0#16,
      0xF000#16, 0xF100#16, 0xF10B#16, 0xF154#16, 0xF1FF#16, 0xFFFF#16].all
      (fun w => decide (decode w = .error (.invalidOpcode w))) = true := by decide

/-- The bytes of a word are big-endian, and a short byte list is refused. -/
theorem test_decode_bytes : decodeBytes [0x6A#8, 0x3C#8] = .ok (.ldImm 0xA#4 0x3C#8) := by decide
theorem test_decode_short : decodeBytes [0x6A#8] = .error .tooShort := by decide

/-! ### Load, logic, arithmetic (2.1) -/

/-- A1 -/
theorem test_A1 : after (exec (.ldImm 0xA#4 0xFF#8) s0) (fun t => t.getV 0xA#4 == 0xFF#8 && t.getV 0xF#4 == 0#8) = true := by decide
/-- A2: wrap, no carry flag -/
theorem test_A2 : after (exec (.addImm 0x0#4 0x01#8) (withRegs [(0x0#4, 0xFF#8), (0xF#4, 0x55#8)]))
    (fun t => t.getV 0x0#4 == 0#8 && t.getV 0xF#4 == 0x55#8) = true := by decide
/-- A4 -/
theorem test_A4 : after (exec (.ldReg 0x1#4 0x2#4) (withRegs [(0x1#4, 0x01#8), (0x2#4, 0xAB#8)]))
    (fun t => t.getV 0x1#4 == 0xAB#8 && t.getV 0x2#4 == 0xAB#8) = true := by decide
/-- A5, A6, A7: VF kept -/
theorem test_A5 : after (exec (.orReg 0x1#4 0x2#4) (withRegs [(0x1#4, 0x0F#8), (0x2#4, 0xF0#8), (0xF#4, 0x07#8)]))
    (fun t => t.getV 0x1#4 == 0xFF#8 && t.getV 0xF#4 == 0x07#8) = true := by decide
theorem test_A6 : after (exec (.andReg 0x1#4 0x2#4) (withRegs [(0x1#4, 0x3C#8), (0x2#4, 0x0F#8), (0xF#4, 0x07#8)]))
    (fun t => t.getV 0x1#4 == 0x0C#8 && t.getV 0xF#4 == 0x07#8) = true := by decide
theorem test_A7 : after (exec (.xorReg 0x1#4 0x2#4) (withRegs [(0x1#4, 0xFF#8), (0x2#4, 0x0F#8), (0xF#4, 0x07#8)]))
    (fun t => t.getV 0x1#4 == 0xF0#8 && t.getV 0xF#4 == 0x07#8) = true := by decide
/-- A10: sum 255 is no carry and clears VF; A12: the flag wins when x = 15 -/
theorem test_A10 : after (exec (.addReg 0x1#4 0x2#4) (withRegs [(0x1#4, 0xFE#8), (0x2#4, 0x01#8), (0xF#4, 0x01#8)]))
    (fun t => t.getV 0x1#4 == 0xFF#8 && t.getV 0xF#4 == 0#8) = true := by decide
theorem test_A12 : after (exec (.addReg 0xF#4 0x1#4) (withRegs [(0xF#4, 0xF0#8), (0x1#4, 0x20#8)]))
    (fun t => t.getV 0xF#4 == 1#8) = true := by decide
/-- A15: equal is no borrow; A16: borrow -/
theorem test_A15 : after (exec (.subReg 0x1#4 0x2#4) (withRegs [(0x1#4, 0x10#8), (0x2#4, 0x10#8)]))
    (fun t => t.getV 0x1#4 == 0#8 && t.getV 0xF#4 == 1#8) = true := by decide
theorem test_A16 : after (exec (.subReg 0x1#4 0x2#4) (withRegs [(0x1#4, 0x00#8), (0x2#4, 0x01#8)]))
    (fun t => t.getV 0x1#4 == 0xFF#8 && t.getV 0xF#4 == 0#8) = true := by decide
/-- A20: V2 - V1 = -1 -/
theorem test_A20 : after (exec (.subn 0x1#4 0x2#4) (withRegs [(0x1#4, 0x02#8), (0x2#4, 0x01#8)]))
    (fun t => t.getV 0x1#4 == 0xFF#8 && t.getV 0xF#4 == 0#8) = true := by decide
/-- A21: the source is V1; A27: it is V2 under the other value of the quirk -/
theorem test_A21 : after (exec (.shr 0x1#4 0x2#4) (withRegs [(0x1#4, 0x01#8), (0x2#4, 0xFE#8)]))
    (fun t => t.getV 0x1#4 == 0#8 && t.getV 0xF#4 == 1#8) = true := by decide
theorem test_A27 : after (shrBy .vy 0x1#4 0x2#4 (withRegs [(0x1#4, 0x01#8), (0x2#4, 0xFE#8)]))
    (fun t => t.getV 0x1#4 == 0x7F#8 && t.getV 0xF#4 == 0#8) = true := by decide
/-- A25 and A28 -/
theorem test_A25 : after (exec (.shl 0x1#4 0x2#4) (withRegs [(0x1#4, 0x7F#8), (0x2#4, 0x80#8)]))
    (fun t => t.getV 0x1#4 == 0xFE#8 && t.getV 0xF#4 == 0#8) = true := by decide
theorem test_A28 : after (shlBy .vy 0x1#4 0x2#4 (withRegs [(0x1#4, 0x80#8), (0x2#4, 0x01#8)]))
    (fun t => t.getV 0x1#4 == 0x02#8 && t.getV 0xF#4 == 0#8) = true := by decide

/-! ### Display (2.2) -/

/-- The framebuffer with the listed pixels on. -/
def lit (l : List (Column × Row)) : Framebuffer := l.foldl (fun f p => f.toggle p.1 p.2) Framebuffer.clear

/-- DR3: start coordinates reduced (124 mod 64, 32 mod 32), and the row wraps to the left edge -/
theorem test_DR3 : after (exec (.drw 0x0#4 0x1#4 0x1#4)
      (((withRegs [(0x0#4, 0x7C#8), (0x1#4, 0x20#8)]).setI 0x300#16).setMem [(0x300, 0xFF#8)]))
    (fun t => decide (t.fb = lit [(60, 0), (61, 0), (62, 0), (63, 0), (0, 0), (1, 0), (2, 0), (3, 0)])
      && t.getV 0xF#4 == 0#8) = true := by decide
/-- DR10: OutOfBounds with addr = max(I, 0x1000) -/
theorem test_DR10 : after (exec (.drw 0x0#4 0x1#4 0x1#4) (s0.setI 0x1234#16))
    (fun t => t.err == some (.outOfBounds 0x200#16 0x1234#16) && t.pc == 0x200#16) = true := by decide
/-- DR11 -/
theorem test_DR11 : after (exec .cls (s0.setFb (lit [(0, 0), (63, 31)])))
    (fun t => decide (t.fb = Framebuffer.clear) && t.pc == 0x202#16) = true := by decide

/-! ### Skips (2.3) -/

theorem test_S1 : after (exec (.seImm 0xA#4 0x42#8) (withRegs [(0xA#4, 0x42#8)])) (fun t => t.pc == 0x204#16) = true := by decide
theorem test_S2 : after (exec (.seImm 0xA#4 0x42#8) (withRegs [(0xA#4, 0x43#8)])) (fun t => t.pc == 0x202#16) = true := by decide
theorem test_S3 : after (exec (.sneImm 0xA#4 0x42#8) (withRegs [(0xA#4, 0x42#8)])) (fun t => t.pc == 0x202#16) = true := by decide
theorem test_S4 : after (exec (.sneImm 0xA#4 0x42#8) (withRegs [(0xA#4, 0x43#8)])) (fun t => t.pc == 0x204#16) = true := by decide
theorem test_S5 : after (exec (.seReg 0xA#4 0xB#4) (withRegs [(0xA#4, 1#8), (0xB#4, 1#8)])) (fun t => t.pc == 0x204#16) = true := by decide
theorem test_S6 : after (exec (.seReg 0xA#4 0xB#4) (withRegs [(0xA#4, 1#8), (0xB#4, 2#8)])) (fun t => t.pc == 0x202#16) = true := by decide
theorem test_S8 : after (exec (.sneReg 0xA#4 0xB#4) (withRegs [(0xA#4, 1#8), (0xB#4, 2#8)])) (fun t => t.pc == 0x204#16) = true := by decide
theorem test_S9 : after (exec (.sneReg 0xA#4 0xB#4) (withRegs [(0xA#4, 1#8), (0xB#4, 1#8)])) (fun t => t.pc == 0x202#16) = true := by decide
/-- S11: the edge is not consumed; S15: only the low nibble selects the key -/
theorem test_S11 : after (exec (.skp 0x0#4) (keySet 0xF#4 (withRegs [(0x0#4, 0x0F#8)])))
    (fun t => t.pc == 0x204#16 && t.kedge == some 0xF#4) = true := by decide
theorem test_S15 : after (exec (.skp 0x0#4) (keySet 0xA#4 (withRegs [(0x0#4, 0x1A#8)]))) (fun t => t.pc == 0x204#16) = true := by decide
theorem test_S13 : after (exec (.sknp 0x0#4) (keySet 0xF#4 (withRegs [(0x0#4, 0x0F#8)]))) (fun t => t.pc == 0x202#16) = true := by decide
theorem test_S14 : after (exec (.sknp 0x0#4) (withRegs [(0x0#4, 0x0F#8)])) (fun t => t.pc == 0x204#16) = true := by decide

/-! ### Jump, call, return, SYS (2.4) -/

/-- F1 -/
theorem test_F1 : after (exec (.jp 0xABC#12) s0) (fun t => t.pc == 0x0ABC#16) = true := by decide
/-- F5: the 16th entry is legal; F6: the 17th is not -/
theorem test_F5 : after (exec (.call 0xABC#12) (s0.setStack (List.replicate 15 0x300#16)))
    (fun t => t.sp == 16 && t.stack.getD 15 0#16 == 0x0200#16 && t.pc == 0x0ABC#16) = true := by decide
theorem test_F6 : after (exec (.call 0xABC#12) (s0.setStack (List.replicate 16 0x300#16)))
    (fun t => t.err == some (.stackOverflow 0x200#16 16) && t.sp == 16 && t.pc == 0x200#16) = true := by decide
/-- F7 and F8 -/
theorem test_F7 : after (exec .ret s0) (fun t => t.err == some (.stackUnderflow 0x200#16)) = true := by decide
theorem test_F8 : after (exec .ret (s0.setStack [0x0400#16, 0x02F0#16]))
    (fun t => t.stack == [0x0400#16] && t.pc == 0x02F2#16) = true := by decide
/-- F10: not reduced modulo 4096 -/
theorem test_F10 : after (exec (.jpV0 0xFFF#12) (withRegs [(0x0#4, 0xFF#8)])) (fun t => t.pc == 0x10FE#16) = true := by decide
/-- F12 and F13 -/
theorem test_F12 : after (exec (.sys 0x000#12) s0) (fun t => t.err == some (.invalidOpcode 0x0000#16 0x200#16)) = true := by decide
theorem test_F13 : after (sysBy .nop 0x123#12 s0) (fun t => t.pc == 0x202#16 && t.err == none) = true := by decide

/-! ### Wait for key, timers, host transactions (2.5) -/

/-- K1: nothing changes, the step's status is WaitingForKey; K3: the latest edge wins -/
theorem test_K1 : after (exec (.ldVxK 0x0#4) s0) (fun t => t.pc == 0x200#16 && t.getV 0x0#4 == 0#8) = true := by decide
theorem test_K3 : after (exec (.ldVxK 0x0#4) (keySet 0x9#4 (keySet 0x3#4 s0)))
    (fun t => t.getV 0x0#4 == 0x09#8 && t.kedge == none && t.keyDown 0x3#4 && t.keyDown 0x9#4 && t.pc == 0x202#16) = true := by decide
/-- K5: the edge survives the release; K6: a held key makes no second edge -/
theorem test_K5 : (keyClear 0x4#4 (keySet 0x4#4 s0)).kedge = some 0x4#4 := by decide
theorem test_K6 : (keySet 0x4#4 ((keySet 0x4#4 s0).setKedge none)).kedge = none := by decide
/-- K7, K8, K9 -/
theorem test_K7 : after (exec (.ldVxDt 0x1#4) (s0.setDt 0x3B#8)) (fun t => t.getV 0x1#4 == 0x3B#8 && t.dt == 0x3B#8) = true := by decide
theorem test_K8 : after (exec (.ldDtVx 0x0#4) (withRegs [(0x0#4, 0xFF#8)])) (fun t => t.dt == 0xFF#8) = true := by decide
theorem test_K9 : after (exec (.ldStVx 0x0#4) (s0.setSt 0x09#8)) (fun t => t.st == 0#8 && !soundActive t) = true := by decide
/-- TK1, TK2 -/
theorem test_TK1 : (tickTimers (tickTimers (s0.setDt 0x01#8))).dt = 0#8 := by decide
theorem test_TK2 : (tickTimers ((s0.setDt 0xFF#8).setSt 0x02#8)).st = 0x01#8 := by decide
/-- TK3: accepted while halted, and the step still returns the latched error -/
theorem test_TK3 : after (step (keySet 0x3#4 (tickTimers ((s0.setDt 0x05#8).setErr (some (.stackUnderflow 0x200#16))))))
    (fun t => t.dt == 0x04#8 && t.kedge == some 0x3#4 && t.err == some (.stackUnderflow 0x200#16)) = true := by decide

/-! ### Random (2.6): the reference generator, and the instruction under it -/

theorem test_RNG_REF_seed1 : (rngRefNext (rngRefSeed 1#64)).1 = 0x21#8 := by decide
theorem test_RNG_REF_seed0 : (rngRefNext (rngRefNext (rngRefSeed 0#64)).2) = (0xAB#8, 0x8B9A74AB#32) := by decide
/-- The decided parameters with the reference generator. -/
def withRngRef : Parameters := { decided with generator := rngRef }

/-- The seed of which both halves count, and R182's state of it -/
theorem test_RNG_REF_fold : rngRefSeed 0xDEADBEEF00000001#64 = 0xDEADBEEE#32 := by decide
/-- R182: the reset to which the host gives no seed takes `DEFAULT_SEED = 0`, and a given seed is taken -/
theorem test_RNG_REF_default : (resetUnder withRngRef none).rng = 0x2545F491 ∧ (resetUnder withRngRef (some 0x1234#64)).rng = 0x1234 := by decide +kernel
/-- RN1: the step of a program under `RNG_REF`, seed 0 -/
theorem test_RN1 : after (stepUnder withRngRef ((resetUnder withRngRef (some 0#64)).withFetchWord 16 0xC0FF))
    (fun t => t.getV 0x0#4 == 0x3A#8 && t.rng == 0xE124B63A && t.pc == 0x202#16) = true := by decide +kernel
/-- RN3, by the host's transactions: reset with seed 1, load, step -/
theorem test_RN3 : (match (Session.mk s0 false).performAllUnder withRngRef [.reset (some 1#64), .loadRom [0xCF#8, 0xFF#8], .step] with
    | .next q => q.1.machine.getV 0xF#4 == 0x21#8 && q.1.machine.rng == 0x00042021 && q.2 == [.none, .ok, .ok]
    | _ => false) = true := by decide +kernel
/-- RN5: a waiting step draws nothing -/
theorem test_RN5 : (match stepTransactionUnder withRngRef ((resetUnder withRngRef none).withFetchWord 16 0xF00A) with
    | .next r => r.2 == .waitingForKey && r.1.rng == 0x2545F491
    | _ => false) = true := by decide +kernel
/-- RN2 and RN4, the generator state coded as a natural number -/
theorem test_RN2 : after (rndBy rngRefNextNat 0x0#4 0x00#8 (s0.setRng 0x2545F491)) (fun t => t.getV 0x0#4 == 0#8 && t.rng == 0xE124B63A) = true := by decide
theorem test_RN4 : after (rndBy rngRefNextNat 0x0#4 0xF0#8 (s0.setRng 0x1234)) (fun t => t.getV 0x0#4 == 0xF0#8 && t.rng == 0x4A94F1F7) = true := by decide

/-! ### Index and memory (2.7) -/

/-- M2 -/
theorem test_M2 : after (exec (.ldI 0x000#12) (s0.setI 0x1234#16)) (fun t => t.i == 0#16) = true := by decide
/-- M3 and M4 -/
theorem test_M3 : after (exec (.addI 0x0#4) ((withRegs [(0x0#4, 0xFF#8)]).setI 0xFFFF#16)) (fun t => t.i == 0x00FE#16) = true := by decide
theorem test_M4 : after (exec (.addI 0x0#4) ((withRegs [(0x0#4, 0x01#8), (0xF#4, 0x07#8)]).setI 0x0FFF#16))
    (fun t => t.i == 0x1000#16 && t.getV 0xF#4 == 0x07#8 && t.err == none) = true := by decide
/-- M7 and M8 -/
theorem test_M7 : after (exec (.ldF 0x0#4) (withRegs [(0x0#4, 0x0F#8)])) (fun t => t.i == 0x004B#16) = true := by decide
theorem test_M8 : after (exec (.ldF 0x0#4) (withRegs [(0x0#4, 0x1A#8)])) (fun t => t.i == 0x0032#16) = true := by decide
/-- The other common `FONT_BASE` (D12): glyph F is at 0x050 + 75, and reset writes the font there and not at 0 -/
theorem test_FONT_BASE_050 : after (execUnder { decided with fontBase := 0x050 } (.ldF 0x0#4) (withRegs [(0x0#4, 0x0F#8)]))
    (fun t => t.i == 0x009B#16) = true := by decide
theorem test_FONT_BASE_050_reset :
    let s := resetUnder { decided with fontBase := 0x050 } none
    s.byteAt 0x000 = 0#8 ∧ s.byteAt 0x050 = 0xF0#8 ∧ s.byteAt 0x056 = 0x60#8 ∧ s.byteAt 0x09F = 0x80#8 ∧
      s.byteAt 0x0A0 = 0#8 := by decide +kernel
/-- The constraint on `FONT_BASE`: 0x1B0 is the highest legal one -/
theorem test_FONT_BASE_bound :
    Parameters.wf { decided with fontBase := 0x1B0 } ∧ ¬ Parameters.wf { decided with fontBase := 0x1B1 } := by decide
/-- M13 and M14: the highest legal base and the next -/
theorem test_M13 : after (exec (.ldB 0x0#4) ((withRegs [(0x0#4, 0x7B#8)]).setI 0xFFD#16))
    (fun t => t.mem == [(0xFFD, 1#8), (0xFFE, 2#8), (0xFFF, 3#8)]) = true := by decide
theorem test_M14 : after (exec (.ldB 0x0#4) ((withRegs [(0x0#4, 0x7B#8)]).setI 0xFFE#16))
    (fun t => t.mem == [] && t.err == some (.outOfBounds 0x200#16 0x1000#16)) = true := by decide
/-- M16: all or nothing; M19: the count is x+1 and I stays; M20 and M21: the other values of the quirk -/
theorem test_M16 : after (exec (.storeRegs 0x1#4) ((withRegs [(0x0#4, 0xAA#8), (0x1#4, 0xBB#8)]).setI 0xFFF#16))
    (fun t => t.mem == [] && t.err == some (.outOfBounds 0x200#16 0x1000#16)) = true := by decide
theorem test_M19 : after (exec (.storeRegs 0x2#4) ((withRegs [(0x0#4, 1#8), (0x1#4, 2#8), (0x2#4, 3#8), (0x3#4, 4#8)]).setI 0x400#16))
    (fun t => t.mem == [(0x400, 1#8), (0x401, 2#8), (0x402, 3#8)] && t.i == 0x400#16) = true := by decide
theorem test_M20 : indexAfter .xPlus1 0x400#16 0x2#4 = 0x403#16 := by decide
theorem test_M21 : indexAfter .x 0x400#16 0x2#4 = 0x402#16 := by decide
/-- M23: the font as loaded by registers; M27: no wrap of the address -/
theorem test_M23 : after (exec (.loadRegs 0xF#4) s0)
    (fun t => t.v.toList == [0xF0#8, 0x90#8, 0x90#8, 0x90#8, 0xF0#8, 0x20#8, 0x60#8, 0x20#8, 0x20#8, 0x70#8, 0xF0#8, 0x10#8, 0xF0#8, 0x80#8, 0xF0#8, 0xF0#8]) = true := by decide
theorem test_M27 : after (exec (.loadRegs 0x0#4) (s0.setI 0xFFFF#16))
    (fun t => t.err == some (.outOfBounds 0x200#16 0xFFFF#16)) = true := by decide

/-! ### Fetch, errors, load (2.8) -/

/-- X1: the last fetchable address; X2: one above it -/
theorem test_X1 : after (step ((s0.setPc 0xFFE#16).setMem [(0xFFE, 0x6A#8), (0xFFF, 0x02#8)]))
    (fun t => t.getV 0xA#4 == 0x02#8 && t.pc == 0x1000#16) = true := by decide
theorem test_X2 : after (step (s0.setPc 0xFFF#16)) (fun t => t.err == some (.outOfBounds 0xFFF#16 0x1000#16) && t.pc == 0xFFF#16) = true := by decide
/-- X5: an odd PC is legal -/
theorem test_X5 : after (step ((s0.setPc 0x201#16).setMem [(0x201, 0x6A#8), (0x202, 0x04#8)]))
    (fun t => t.getV 0xA#4 == 0x04#8 && t.pc == 0x203#16) = true := by decide
/-- X7: no ROM loaded -/
theorem test_X7 : after (step s0) (fun t => t.err == some (.invalidOpcode 0x0000#16 0x200#16)) = true := by decide
/-- L2v: one byte too many -/
theorem test_L2v : loadRom (List.replicate 3585 0xAB#8) s0 = (s0, .romTooLarge 3585) := by
  simp only [loadRom, List.length_replicate, Config.romMax]
  rfl
/-- L4v: an odd length, and the word fetched from it -/
theorem test_L4v : fetch (loadRom [0x12#8] s0).1 = .ok 0x1200#16 := by decide
/-- The instruction of a table word runs as the first after reset (M28's word is placed big-endian). -/
theorem test_fetchWord : after (step (s0.withFetchWord 16 0x6A3C)) (fun t => t.getV 0xA#4 == 0x3C#8 && t.pc == 0x202#16) = true := by decide
theorem test_decodeTableWord : decodeTableWord 16 0xD123 = some (.drw 0x1#4 0x2#4 0x3#4) := by decide
/-- U17: a second successful load is refused by name. -/
theorem test_load_window : (match (Session.mk s0 false).perform (.loadRom []) with
    | .refused .loadRomOutsideWindow => true
    | _ => false) = true := by decide
/-- P4, events 3 and 8: the status of the waiting step and of the one after `key_set(7)`. -/
theorem test_status_wait : (match stepTransaction (s0.withFetchWord 16 0xF10A) with
    | .next r => r.2 == .waitingForKey
    | _ => false) = true := by decide
theorem test_status_ok : (match stepTransaction (keySet 0x7#4 (s0.withFetchWord 16 0xF10A)) with
    | .next r => r.2 == .ok && r.1.getV 0x1#4 == 0x07#8
    | _ => false) = true := by decide

/-! ### Witnesses: the hypotheses of each statement can be met, at the boundary of each clause -/

section Witnesses

open Sys2Proof.Claims

/-- A program of the given bytes at 0x200, after reset. -/
def withProgram (bytes : List Byte) : State := (loadRom bytes s0).1

theorem witness_DecodeOfEncode : (Instr.sys 0x0DF#12).WellFormed = true ∧ (Instr.sys 0x0E1#12).WellFormed = true := by decide
theorem witness_EncodeOfDecode : decode 0xFF65#16 = .ok (.loadRegs 0xF#4) := by decide
theorem witness_IllegalWordsAreRefused :
    IllegalWord 0x5001#16 ∧ ¬ IllegalWord 0x5000#16 ∧ IllegalWord 0x8008#16 ∧ ¬ IllegalWord 0x8007#16 ∧
    IllegalWord 0x900F#16 ∧ ¬ IllegalWord 0x9000#16 ∧ IllegalWord 0xE09D#16 ∧ ¬ IllegalWord 0xE09E#16 ∧
    IllegalWord 0xFFFF#16 ∧ ¬ IllegalWord 0xFF65#16 := by
  simp [IllegalWord]

/-- The highest address an instruction can be fetched from. -/
theorem witness_StepRunsDecodedInstruction :
    let s := (s0.setPc 0xFFE#16).setMem [(0xFFE, 0xD1#8), (0xFFF, 0x23#8)]
    s.err = none ∧ s.pc.toNat < 0xFFF ∧
      decodeBytes [s.byteAt s.pc.toNat, s.byteAt (s.pc.toNat + 1)] = .ok (.drw 0x1#4 0x2#4 0x3#4) := by decide
/-- Both forms of the payload: `PC` below 0x1000 and above. -/
theorem witness_FetchBeyondMemoryRaises :
    (s0.setPc 0xFFF#16).err = none ∧ 0xFFF ≤ (s0.setPc 0xFFF#16).pc.toNat ∧ payloadAddr 0xFFF#16 = 0x1000#16 ∧
    (s0.setPc 0x10FE#16).err = none ∧ 0xFFF ≤ (s0.setPc 0x10FE#16).pc.toNat ∧ payloadAddr 0x10FE#16 = 0x10FE#16 := by decide
theorem witness_UndecodableWordRaises :
    let s := withProgram [0x81#8, 0x2F#8]
    s.err = none ∧ s.pc.toNat < 0xFFF ∧ 0x812F#16 = s.byteAt s.pc.toNat ++ s.byteAt (s.pc.toNat + 1) ∧
      IllegalWord 0x812F#16 := by
  unfold IllegalWord
  decide
theorem witness_HaltedStepChangesNothing :
    (s0.setErr (some (.stackUnderflow 0x200#16))).err = some (.stackUnderflow 0x200#16) := by decide

/-- One state for each error: the step answers a next state that holds it. -/
theorem witness_RaisingStepChangesOnlyErr :
    s0.err = none ∧ ∃ t, step s0 = .next t ∧ t.err = some (.invalidOpcode 0x0000#16 0x200#16) := ⟨rfl, _, rfl, by decide⟩
theorem witness_ErrorsHaveTheirListedCauses_invalid_word :
    ∃ t, step (withProgram [0xE0#8, 0xA2#8]) = .next t ∧ t.err = some (.invalidOpcode 0xE0A2#16 0x200#16) :=
  ⟨_, rfl, by decide⟩
theorem witness_ErrorsHaveTheirListedCauses_fetch :
    ∃ t, step (s0.setPc 0xFFF#16) = .next t ∧ t.err = some (.outOfBounds 0xFFF#16 0x1000#16) := ⟨_, rfl, by decide⟩
theorem witness_ErrorsHaveTheirListedCauses_draw :
    ∃ t, step ((withProgram [0xD0#8, 0x12#8]).setI 0xFFF#16) = .next t ∧ t.err = some (.outOfBounds 0x200#16 0x1000#16) :=
  ⟨_, rfl, by decide⟩
theorem witness_ErrorsHaveTheirListedCauses_digits :
    ∃ t, step ((withProgram [0xF0#8, 0x33#8]).setI 0xFFE#16) = .next t ∧ t.err = some (.outOfBounds 0x200#16 0x1000#16) :=
  ⟨_, rfl, by decide⟩
theorem witness_ErrorsHaveTheirListedCauses_store :
    ∃ t, step ((withProgram [0xF1#8, 0x55#8]).setI 0xFFF#16) = .next t ∧ t.err = some (.outOfBounds 0x200#16 0x1000#16) :=
  ⟨_, rfl, by decide⟩
theorem witness_ErrorsHaveTheirListedCauses_load :
    ∃ t, step ((withProgram [0xF0#8, 0x65#8]).setI 0x1000#16) = .next t ∧ t.err = some (.outOfBounds 0x200#16 0x1000#16) :=
  ⟨_, rfl, by decide⟩
theorem witness_ErrorsHaveTheirListedCauses_call :
    ∃ t, step ((withProgram [0x22#8, 0x00#8]).setStack (List.replicate 16 0x300#16)) = .next t ∧
      t.err = some (.stackOverflow 0x200#16 16) := ⟨_, rfl, by decide⟩
theorem witness_ErrorsHaveTheirListedCauses_ret :
    ∃ t, step (withProgram [0x00#8, 0xEE#8]) = .next t ∧ t.err = some (.stackUnderflow 0x200#16) := ⟨_, rfl, by decide⟩

/-- An empty sprite at an address outside memory, and the last legal sprite of 15 rows and of one. -/
theorem witness_DrawXorsTheSprite :
    (0x0#4 = 0#4) ∧ (s0.setI 0xFF1#16).i.toNat + (0xF#4 : Nibble).toNat - 1 ≤ 0xFFF ∧
      (s0.setI 0xFFF#16).i.toNat + (0x1#4 : Nibble).toNat - 1 ≤ 0xFFF := by decide
/-- Every pixel case of the statement: a covered pixel that is on, a covered one that is off, and one not covered. -/
theorem witness_DrawXorsTheSprite_pixels :
    let s := ((s0.setI 0x300#16).setMem [(0x300, 0x81#8)]).setFb (lit [(0, 0)])
    (Covers 0x0#4 0x0#4 0x1#4 s 0 0 ∧ s.fb.pixel 0 0 = true) ∧ (Covers 0x0#4 0x0#4 0x1#4 s 7 0 ∧ s.fb.pixel 7 0 = false) ∧
      ¬ Covers 0x0#4 0x0#4 0x1#4 s 0 31 := by
  refine ⟨⟨⟨0, 0, ?_⟩, ?_⟩, ⟨⟨0, 7, ?_⟩, ?_⟩, ?_⟩
  all_goals first | decide | skip
  rintro ⟨r, c, hr, -, -, -, hy⟩
  obtain rfl : r = 0 := by simp at hr; omega
  exact absurd hy (by decide)
/-- The state in which the second draw is made. -/
theorem witness_DrawTwiceRestores :
    let s := (s0.setI 0x300#16).setMem [(0x300, 0x81#8)]
    (s.i.toNat + (0x1#4 : Nibble).toNat - 1 ≤ 0xFFF) ∧
      ∃ t, exec (.drw 0x0#4 0x0#4 0x1#4) s = .next t ∧ ∃ u : State, u.fb = t.fb ∧ u.i = s.i ∧
        u.getV 0x0#4 = s.getV 0x0#4 ∧ u.getV 0x0#4 = s.getV 0x0#4 ∧ ∀ a, u.byteAt a = s.byteAt a :=
  ⟨by decide, _, rfl, State.setFb ((s0.setI 0x300#16).setMem [(0x300, 0x81#8)]) _, rfl, rfl, rfl, rfl, fun _ => rfl⟩

/-- The key number is the low nibble, and every key can be named: 0 and 15. -/
theorem witness_SkipOnKey :
    ((withRegs [(0x3#4, 0x1F#8)]).getV 0x3#4).toNat % 16 = (0xF#4 : Nibble).toNat ∧
      (s0.getV 0x3#4).toNat % 16 = (0x0#4 : Nibble).toNat := by decide
theorem witness_JumpSetsPc : (s0.setPc 0xFFF#16).pc.toNat = (0xFFF#12 : Addr).toNat ∧
    s0.pc.toNat = (0x200#12 : Addr).toNat := by decide
theorem witness_CallPushes : s0.stack.length < 16 ∧ (s0.setStack (List.replicate 15 0x300#16)).stack.length < 16 := by decide
theorem witness_SeventeenthCallOverflows :
    (s0.setStack (List.replicate 16 0x300#16)).sp = 16 ∧ s0.sp = 0 ∧ (List.replicate 16 (0x200#12 : Addr)).length = 16 := by decide
theorem witness_ReturnPops : (s0.setStack [0xFFE#16]).stack = [] ++ [0xFFE#16] ∧
    (s0.setStack (List.replicate 16 0x300#16)).stack = List.replicate 15 0x300#16 ++ [0x300#16] := by decide
theorem witness_ReturnOnEmptyUnderflows : s0.sp = 0 := by decide
theorem witness_CallThenReturn :
    s0.stack.length < 16 ∧ ∃ t, exec (.call 0x400#12) s0 = .next t ∧
      ∃ u : State, u.stack = t.stack ∧ u.pc ≠ t.pc := ⟨by decide, _, rfl, (s0.setStack [0x200#16]).setPc 0x402#16, rfl, by decide⟩

theorem witness_KeyWaitCompletes : (s0.setKedge (some 0xF#4)).kedge = some 0xF#4 ∧ (keySet 0x0#4 s0).kedge = some 0x0#4 := by decide
theorem witness_KeyWaitHolds :
    (withProgram [0xFF#8, 0x0A#8]).kedge = none ∧ (withProgram [0xFF#8, 0x0A#8]).err = none ∧
      nextInstr (withProgram [0xFF#8, 0x0A#8]) = .ok (.ldVxK 0xF#4) := by decide
/-- No hypotheses; the values at which the tick clause could go wrong, both written by `LD DT, Vx` and then ticked: 0 and 1. -/
theorem witness_TimerAccess :
    after (exec (.ldDtVx 0x0#4) s0) (fun t => (tickTimers t).dt == 0#8) = true ∧
      after (exec (.ldDtVx 0xF#4) (withRegs [(0xF#4, 0x01#8)])) (fun t => (tickTimers t).dt == 0#8) = true := by decide
theorem witness_RngAdvancesOncePerRnd :
    ∃ t, runAll [.rnd 0x0#4 0x00#8, .cls, .rnd 0xF#4 0xFF#8] s0 = .next t := ⟨_, rfl⟩

/-- The last legal base and the first that is not. -/
theorem witness_StoreDecimalDigits :
    (s0.setI 0xFFD#16).i.toNat + 2 ≤ 0xFFF ∧ 0xFFE ≤ (s0.setI 0xFFE#16).i.toNat ∧ 0xFFE ≤ (s0.setI 0xFFFF#16).i.toNat := by decide
theorem witness_StoreRegisterBlock :
    (s0.setI 0xFF0#16).i.toNat + (0xF#4 : Nibble).toNat ≤ 0xFFF ∧ (s0.setI 0xFFF#16).i.toNat + (0x0#4 : Nibble).toNat ≤ 0xFFF := by decide
theorem witness_LoadRegisterBlock :
    s0.i.toNat + (0xF#4 : Nibble).toNat ≤ 0xFFF ∧ (s0.setI 0xFFF#16).i.toNat + (0x0#4 : Nibble).toNat ≤ 0xFFF := by decide
theorem witness_AccessBeyondMemoryRaises :
    (0x1#4 ≠ 0#4 ∧ 0xFFF < (s0.setI 0x1000#16).i.toNat + (0x1#4 : Nibble).toNat - 1) ∧
      (0xFFF < (s0.setI 0xFFF#16).i.toNat + (0x1#4 : Nibble).toNat) ∧
      (0xFFF < (s0.setI 0xFFFF#16).i.toNat + (0x0#4 : Nibble).toNat) := by decide
/-- The smallest block that holds a word, the word fetched from its first byte at the end of memory, and the largest. -/
theorem witness_StoreSeenByFetch :
    let s := withRegs [(0x0#4, 0x12#8), (0x1#4, 0x34#8)]
    (s.setI 0xFFE#16).i.toNat + (0x1#4 : Nibble).toNat ≤ 0xFFF ∧ (0x0#4 : Nibble).toNat + 1 ≤ (0x1#4 : Nibble).toNat ∧
      (0xE#4 : Nibble).toNat + 1 ≤ (0xF#4 : Nibble).toNat ∧
      ∃ t, exec (.storeRegs 0x1#4) (s.setI 0xFFE#16) = .next t ∧
        ∃ u : State, (∀ a, u.byteAt a = t.byteAt a) ∧ u.pc.toNat = (s.setI 0xFFE#16).i.toNat + (0x0#4 : Nibble).toNat :=
  ⟨by decide, by decide, by decide, _, rfl, State.setPc _ 0xFFE#16, fun _ => rfl, by decide⟩

theorem witness_InstructionsWriteOnlyTheirParts : ∃ t, exec (.drw 0x0#4 0x1#4 0xF#4) s0 = .next t := ⟨_, rfl⟩
/-- A flag writer that completes and one that raises, and an instruction that names `VF` as its destination. -/
theorem witness_RegisterWriters :
    (∃ t, exec (.addReg 0x0#4 0x1#4) s0 = .next t) ∧ writesFlag (.addReg 0x0#4 0x1#4) ∧
      ¬ writesReg (.addReg 0x0#4 0x1#4) 0xF#4 ∧
      (∃ t, exec (.drw 0x0#4 0x1#4 0x1#4) (s0.setI 0x1000#16) = .next t) ∧ writesFlag (.drw 0x0#4 0x1#4 0x1#4) ∧
      (∃ t, exec (.ldImm 0xF#4 0x07#8) s0 = .next t) ∧ writesReg (.ldImm 0xF#4 0x07#8) 0xF#4 ∧
      ¬ writesFlag (.ldImm 0xF#4 0x07#8) ∧ ¬ writesReg (.ldImm 0xF#4 0x07#8) 0x0#4 := by
  refine ⟨⟨_, rfl⟩, trivial, ?_, ⟨_, rfl⟩, trivial, ⟨_, rfl⟩, rfl, id, ?_⟩ <;> simp [writesReg]
theorem witness_SoundTimerIsNeverRead : ∃ t, exec (.ldStVx 0x0#4) (s0.setSt 0x09#8) = .next t := ⟨_, rfl⟩
theorem witness_FramebufferIsNeverRead :
    (∃ t, exec (.drw 0x0#4 0x0#4 0x5#4) s0 = .next t) ∧ (∃ t, exec .cls s0 = .next t) ∧ ¬ isDrw .cls := ⟨⟨_, rfl⟩, ⟨_, rfl⟩, id⟩
theorem noSoundWrite_cons {c : Session} {t : Transaction} {ts : List Transaction} (q : Session × Result)
    (hr : ∀ seed, t ≠ .reset seed) (hs : t = .step → ¬ SetsSound c.machine) (hp : c.perform t = .next q)
    (h : NoSoundWrite q.1 ts) : NoSoundWrite c (t :: ts) :=
  ⟨hr, hs, fun d r e => by rw [hp] at e; cases e; exact h⟩
/-- Two ticks with a key event and a step, which executes the `CLS` at 0x202, between them. -/
theorem witness_SoundLastsForItsTicks :
    let s := (withProgram [0xF0#8, 0x18#8, 0x00#8, 0xE0#8]).setV 0x0#4 0x02#8
    0 < (s.getV 0x0#4).toNat ∧ ∃ t, exec (.ldStVx 0x0#4) s = .next t ∧
      ∃ c d rs, c.machine = t ∧ NoSoundWrite c [.tickTimers, .keySet 0x3#4, .step, .tickTimers] ∧
        c.performAll [.tickTimers, .keySet 0x3#4, .step, .tickTimers] = .next (d, rs) := by
  refine ⟨by decide, _, rfl, ⟨_, false⟩, _, _, rfl, ?_, rfl⟩
  refine noSoundWrite_cons _ (by simp) (by simp) rfl (noSoundWrite_cons _ (by simp) (by simp) rfl
    (noSoundWrite_cons _ (by simp) ?_ rfl (noSoundWrite_cons _ (by simp) (by simp) rfl trivial)))
  rintro - ⟨-, x, hx⟩
  cases hx.symm.trans (by decide : _ = Except.ok Instr.cls)
theorem witness_KeyTransactions : s0.keyDown 0x0#4 = false ∧ (keySet 0xF#4 s0).keyDown 0xF#4 = true := by decide
theorem witness_RomLoadsVerbatimOrNotAtAll :
    (List.replicate 3584 0xAB#8).length ≤ 3584 ∧ ([] : List Byte).length ≤ 3584 ∧ 3584 < (List.replicate 3585 0xAB#8).length :=
  ⟨List.length_replicate.le, by decide, Nat.lt_of_lt_of_eq (by decide) List.length_replicate.symm⟩
/-- A closed window; an open one and the longest load that fits; the shortest that does not; the other transactions; and
transactions without a reset from a closed window. -/
theorem witness_LoadWindow :
    (Session.mk s0 false).loadWindow = false ∧ (Session.mk s0 true).loadWindow = true ∧
      (List.replicate 3584 0xAB#8).length ≤ 3584 ∧ 3584 < (List.replicate 3585 0xAB#8).length ∧
      (∃ k, Transaction.keyClear 0xF#4 = .keyClear k) ∧
      (∀ seed, Transaction.reset seed ∉ [.tickTimers, .step, .keySet 0x0#4]) ∧
      ∃ d rs, (Session.mk s0 false).performAll [.tickTimers, .step, .keySet 0x0#4] = .next (d, rs) :=
  ⟨rfl, rfl, List.length_replicate.le, Nat.lt_of_lt_of_eq (by decide) List.length_replicate.symm, ⟨_, rfl⟩, by simp, _, _, rfl⟩
theorem witness_ResetLeaves : (79 : Nat) < 80 ∧ (80 : Nat) ≤ 80 ∧ font.getD 79 0#8 = 0x80#8 := by decide
/-- The invariant's boundary: a full stack of the highest call address, `PC` at its highest, the last cell listed. -/
def edgeState : State :=
  ((s0.setStack (List.replicate 16 0xFFE#16)).setPc 0x10FE#16).setMem [(0xFFF, 0x01#8)]
theorem witness_StepKeepsInvariant : edgeState.Inv ∧ ∃ t, step edgeState = .next t := by
  refine ⟨⟨⟨List.pairwise_singleton _ _, ?_⟩, ?_, ?_, ?_⟩, _, rfl⟩
  · intro c hc
    obtain rfl := List.mem_singleton.mp hc
    decide
  · decide
  · intro r hr
    rw [List.eq_of_mem_replicate (n := 16) hr]
    decide
  · decide
theorem witness_TransactionsKeepInvariant :
    (Session.mk edgeState true).machine.Inv ∧
      ∃ d r, (Session.mk edgeState true).perform (.loadRom [0x12#8, 0x00#8]) = .next (d, r) :=
  ⟨witness_StepKeepsInvariant.1, _, _, rfl⟩

end Witnesses

end Sys2Proof.Tests
end

section
/-! The statements about the display (spec file 41). -/

namespace Sys2Proof.Proofs.Display

open Sys2Proof Sys2Proof.Machine Sys2Proof.Laws

/-- The frame of an instruction that replaces the framebuffer and goes on to the next instruction (R143). -/
theorem sameBut_setFb_advance (s : State) (f : Framebuffer) : SameBut [.fb, .pc] s (s.setFb f).advance := by
  intro part hpart
  cases part with
  | fb | pc => simp at hpart
  | mem | v | i | stack | dt | st | key | kedge | rng | err => simp [Field.Same]

/-- Settles O21: the next state is the one with the cleared framebuffer, advanced; its pixels are those of
`Framebuffer.clear`, and what it leaves alone is the frame of such an update. -/
theorem clearScreen : Obligations.ClearScreen := by
  have hword : decode 0x00E0#16 = .ok .cls := RoundTrip.cls rfl
  refine ⟨hword, fun s => ⟨(s.setFb Framebuffer.clear).advance, rfl, ?_, ?_, sameBut_setFb_advance s _⟩⟩
  · intro X Y
    rw [State.advance_fb, State.setFb_fb, Framebuffer.clear_pixel]
  · rw [State.advance_pc, State.setFb_pc]

end Sys2Proof.Proofs.Display
end

section
/-! The statements about the skips (spec file 42). -/

namespace Sys2Proof.Proofs.Skip

open Sys2Proof Sys2Proof.Machine Sys2Proof.Laws

/-- The frame of an instruction that does nothing but set `PC` (R156, R162). -/
theorem sameBut_setPc (s : State) (a : Word) : SameBut [.pc] s (s.setPc a) := by
  intro part hpart
  cases part with
  | pc => simp at hpart
  | mem | v | i | stack | dt | st | fb | key | kedge | rng | err => simp [Field.Same]

/-- The common rule of the skips (R156), for the proposition `p` that the computed condition decides. -/
theorem skipIf_spec {p : Prop} [Decidable p] {cond : Bool} (hcond : cond = true ↔ p) (s : State) :
    ∃ t, skipIf cond s = .next t ∧ t.pc = (if p then s.pc + 4#16 else s.pc + 2#16) ∧ SameBut [.pc] s t := by
  refine ⟨s.setPc (if cond then s.pc + 4#16 else s.pc + 2#16), rfl, ?_, sameBut_setPc s _⟩
  simp only [State.setPc_pc, hcond]

/-- Settles O24: the words by the round trip; each instruction is by definition the common rule of the skips at its own
comparison, and the Boolean `==` or `!=` it computes decides `=` or `≠`. -/
theorem skipOnComparison : Obligations.SkipOnComparison := by
  intro x y kk s
  refine ⟨RoundTrip.seImm x kk rfl, RoundTrip.sneImm x kk rfl, RoundTrip.seReg x y rfl, RoundTrip.sneReg x y rfl,
    ?seImm, ?sneImm, ?seReg, ?sneReg⟩
  case seImm | seReg => exact skipIf_spec beq_iff_eq s
  case sneImm | sneReg => exact skipIf_spec bne_iff_ne s

end Sys2Proof.Proofs.Skip
end

section
/-! The statements about the jumps, the call and the return (spec file 43). -/

namespace Sys2Proof.Proofs.Jump

open Sys2Proof Sys2Proof.Machine Sys2Proof.Laws Sys2Proof.Proofs.Skip

/-- A 12-bit target keeps its value as an address in `PC` (R162). -/
@[simp] theorem zextAddr_toNat (nnn : Addr) : (zextAddr nnn).toNat = nnn.toNat :=
  BitVec.toNat_setWidth_of_le (by decide)

/-- Setting `PC` to the value it has changes nothing. -/
@[simp] theorem setPc_pc_self (s : State) : s.setPc s.pc = s := rfl

/-- `JP` sets `PC` to its target and does nothing else (R162). -/
theorem exec_jp (nnn : Addr) (s : State) : exec (.jp nnn) s = .next (s.setPc (zextAddr nnn)) := rfl

/-- A jump to its own address is the identity (R162, the idiomatic halt): the target is the `PC` the state has. -/
theorem exec_jp_self {nnn : Addr} {s : State} (h : s.pc.toNat = nnn.toNat) : exec (.jp nnn) s = .next s := by
  have htarget : zextAddr nnn = s.pc := BitVec.eq_of_toNat_eq (by rw [zextAddr_toNat, h])
  rw [exec_jp, htarget, setPc_pc_self]

/-- Settles O26: the word by the round trip; the next state is the one with `PC` at the target, whose value zero
extension keeps, so that setting `PC` to the address it already has is no change. -/
theorem jumpSetsPc : Obligations.JumpSetsPc := by
  intro nnn s
  refine ⟨RoundTrip.jp nnn rfl, ⟨s.setPc (zextAddr nnn), exec_jp nnn s, ?_, sameBut_setPc s _⟩, exec_jp_self⟩
  rw [State.setPc_pc, zextAddr_toNat]

end Sys2Proof.Proofs.Jump
end

section
/-! The statements about the index register and the memory instructions (spec file 46). -/

namespace Sys2Proof.Proofs.Index

open Sys2Proof Sys2Proof.Machine Sys2Proof.Laws Sys2Proof.Proofs.Jump

/-- The frame of an instruction that sets `I` and goes on to the next instruction (R185). -/
theorem sameBut_setI_advance (s : State) (a : Word) : SameBut [.i, .pc] s (s.setI a).advance := by
  intro part hpart
  cases part with
  | i | pc => simp at hpart
  | mem | v | stack | dt | st | fb | key | kedge | rng | err => simp [Field.Same]

/-- `LD I` sets `I` to its operand and goes on to the next instruction (R185). -/
theorem exec_ldI (nnn : Addr) (s : State) : exec (.ldI nnn) s = .next (s.setI (zextAddr nnn)).advance := rfl

/-- Settles O39: the word by the round trip; the next state is the one with `I` at the operand, advanced, and zero
extension keeps the operand's value, so that no bit above the low 12 is set. -/
theorem loadIndex : Obligations.LoadIndex := by
  intro nnn s
  refine ⟨RoundTrip.ldI nnn rfl, (s.setI (zextAddr nnn)).advance, exec_ldI nnn s, ?_, ?_, sameBut_setI_advance s _⟩
  · rw [State.advance_i, State.setI_i, zextAddr_toNat]
  · rw [State.advance_pc, State.setI_pc]

end Sys2Proof.Proofs.Index
end

section
/-! The statements about encoding and decoding (spec file 30). -/

namespace Sys2Proof.Proofs.Encoding

open Sys2Proof Sys2Proof.Machine Sys2Proof.Claims Sys2Proof.Laws

/-! ### Words and their fields -/

/-- A word with opcode digit `op` is the one `op` and its `nnn` make. -/
theorem wordNNN_nnnField {w : Word} {op : Nibble} (h : (opField w).toNat = op.toNat) :
    wordNNN op (nnnField w) = w := by
  rw [← BitVec.eq_of_toNat_eq h, wordNNN_fields]

/-- A word with opcode digit `op` and low byte `kk` is the one they make with its `x`. -/
theorem wordXKK_xField {w : Word} {op : Nibble} {kk : Byte} (h : (opField w).toNat = op.toNat)
    (hkk : (kkField w).toNat = kk.toNat) : wordXKK op (xField w) kk = w := by
  rw [← BitVec.eq_of_toNat_eq h, ← BitVec.eq_of_toNat_eq hkk, wordXKK_fields]

/-- A word with opcode digit `op` and low digit `n` is the one they make with its `x` and `y`. -/
theorem wordXYN_xField_yField {w : Word} {op n : Nibble} (h : (opField w).toNat = op.toNat)
    (hn : (nField w).toNat = n.toNat) : wordXYN op (xField w) (yField w) n = w := by
  rw [← BitVec.eq_of_toNat_eq h, ← BitVec.eq_of_toNat_eq hn, wordXYN_fields]

/-! ### Round trips -/

/-- Settles O2: by the constructors, each of them the round trip of its own word. -/
theorem decodeOfEncode : Obligations.DecodeOfEncode := by
  intro i
  cases i with
  | cls => exact RoundTrip.cls
  | ret => exact RoundTrip.ret
  | sys nnn => exact RoundTrip.sys nnn
  | jp nnn => exact RoundTrip.jp nnn
  | call nnn => exact RoundTrip.call nnn
  | seImm x kk => exact RoundTrip.seImm x kk
  | sneImm x kk => exact RoundTrip.sneImm x kk
  | seReg x y => exact RoundTrip.seReg x y
  | ldImm x kk => exact RoundTrip.ldImm x kk
  | addImm x kk => exact RoundTrip.addImm x kk
  | ldReg x y => exact RoundTrip.ldReg x y
  | orReg x y => exact RoundTrip.orReg x y
  | andReg x y => exact RoundTrip.andReg x y
  | xorReg x y => exact RoundTrip.xorReg x y
  | addReg x y => exact RoundTrip.addReg x y
  | subReg x y => exact RoundTrip.subReg x y
  | shr x y => exact RoundTrip.shr x y
  | subn x y => exact RoundTrip.subn x y
  | shl x y => exact RoundTrip.shl x y
  | sneReg x y => exact RoundTrip.sneReg x y
  | ldI nnn => exact RoundTrip.ldI nnn
  | jpV0 nnn => exact RoundTrip.jpV0 nnn
  | rnd x kk => exact RoundTrip.rnd x kk
  | drw x y n => exact RoundTrip.drw x y n
  | skp x => exact RoundTrip.skp x
  | sknp x => exact RoundTrip.sknp x
  | ldVxDt x => exact RoundTrip.ldVxDt x
  | ldVxK x => exact RoundTrip.ldVxK x
  | ldDtVx x => exact RoundTrip.ldDtVx x
  | ldStVx x => exact RoundTrip.ldStVx x
  | addI x => exact RoundTrip.addI x
  | ldF x => exact RoundTrip.ldF x
  | ldB x => exact RoundTrip.ldB x
  | storeRegs x => exact RoundTrip.storeRegs x
  | loadRegs x => exact RoundTrip.loadRegs x

/-- `w` is the word of the well-formed instruction `i`. -/
def IsWordOf (w : Word) (i : Instr) : Prop := encode i = w ∧ i.WellFormed = true

/-- Every word with high digit 0 is the word of the instruction it decodes to: `SYS` is what is left after the two words
its well-formedness excludes (R94 steps 1 to 3). -/
theorem isWordOf_decodeOp0 {w : Word} (hop : (opField w).toNat = 0x0) : IsWordOf w (decodeOp0 w) := by
  unfold decodeOp0
  split
  next h => exact ⟨h.symm, rfl⟩
  next hcls =>
    split
    next h => exact ⟨h.symm, rfl⟩
    next hret =>
      have hw : wordNNN 0x0#4 (nnnField w) = w := wordNNN_nnnField hop
      refine ⟨hw, ?_⟩
      simp only [Instr.WellFormed, Bool.and_eq_true, bne_iff_ne]
      constructor
      · intro hnnn
        rw [hnnn] at hw
        exact hcls hw.symm
      · intro hnnn
        rw [hnnn] at hw
        exact hret hw.symm

/-- A word with high digit 8 that decodes is the word of its instruction (R94 step 6). -/
theorem isWordOf_of_decodeOp8 {w : Word} {i : Instr} (hop : (opField w).toNat = 0x8) (h : decodeOp8 w = .ok i) :
    IsWordOf w i := by
  unfold decodeOp8 at h
  split at h
  case h_10 => cases h
  all_goals
    next hn =>
      cases h
      exact ⟨wordXYN_xField_yField hop hn, rfl⟩

/-- A word with high digit E that decodes is the word of its instruction (R94 step 7). -/
theorem isWordOf_of_decodeOpE {w : Word} {i : Instr} (hop : (opField w).toNat = 0xE) (h : decodeOpE w = .ok i) :
    IsWordOf w i := by
  unfold decodeOpE at h
  split at h
  case h_3 => cases h
  all_goals
    next hkk =>
      cases h
      exact ⟨wordXKK_xField hop hkk, rfl⟩

/-- A word with high digit F that decodes is the word of its instruction (R94 step 8). -/
theorem isWordOf_of_decodeOpF {w : Word} {i : Instr} (hop : (opField w).toNat = 0xF) (h : decodeOpF w = .ok i) :
    IsWordOf w i := by
  unfold decodeOpF at h
  split at h
  case h_10 => cases h
  all_goals
    next hkk =>
      cases h
      exact ⟨wordXKK_xField hop hkk, rfl⟩

/-- Settles O3: by the opcode digit, as the decoder goes (R94). The fields it reads and the digits it tests are all the
bits of the word. -/
theorem encodeOfDecode : Obligations.EncodeOfDecode := by
  intro w i h
  show IsWordOf w i
  unfold decode at h
  split at h
  case h_1 hop =>
    cases h
    exact isWordOf_decodeOp0 hop
  case h_2 hop | h_3 hop | h_11 hop | h_12 hop =>
    cases h
    exact ⟨wordNNN_nnnField hop, rfl⟩
  case h_4 hop | h_5 hop | h_7 hop | h_8 hop | h_13 hop =>
    cases h
    exact ⟨wordXKK_xField hop rfl, rfl⟩
  case h_6 hop | h_10 hop =>
    split at h
    next hn =>
      cases h
      exact ⟨wordXYN_xField_yField hop (congrArg BitVec.toNat hn), rfl⟩
    next => cases h
  case h_9 hop => exact isWordOf_of_decodeOp8 hop h
  case h_14 hop =>
    cases h
    exact ⟨wordXYN_xField_yField hop rfl, rfl⟩
  case h_15 hop => exact isWordOf_of_decodeOpE hop h
  case h_16 =>
    have hF : (opField w).toNat = 0xF := by
      simp only [imp_false] at *
      have hlt := (opField w).isLt
      omega
    exact isWordOf_of_decodeOpF hF h

/-! ### Which words are refused -/

/-- R98's list in the fields the decoder reads. -/
theorem illegalWord_iff (w : Word) : IllegalWord w ↔
    ((opField w).toNat = 0x5 ∧ (nField w).toNat ≠ 0) ∨
    ((opField w).toNat = 0x8 ∧ (nField w).toNat ∈ [0x8, 0x9, 0xA, 0xB, 0xC, 0xD, 0xF]) ∨
    ((opField w).toNat = 0x9 ∧ (nField w).toNat ≠ 0) ∨
    ((opField w).toNat = 0xE ∧ (kkField w).toNat ∉ [0x9E, 0xA1]) ∨
    ((opField w).toNat = 0xF ∧ (kkField w).toNat ∉ [0x07, 0x0A, 0x15, 0x18, 0x1E, 0x29, 0x33, 0x55, 0x65]) := by
  have hop : (opField w).toNat = w.toNat / 4096 := by
    rw [opField_toNat]
    have hlt := w.isLt
    omega
  rw [IllegalWord, hop, nField_toNat, kkField_toNat]

/-- A word of R98's list is refused, by the word: its opcode digit leads to a test that its low digit or byte fails. -/
theorem decode_illegalWord {w : Word} (h : IllegalWord w) : decode w = .error (.invalidOpcode w) := by
  rw [illegalWord_iff] at h
  rcases h with ⟨hop, h⟩ | ⟨hop, h⟩ | ⟨hop, h⟩ | ⟨hop, h⟩ | ⟨hop, h⟩
  case inl | inr.inr.inl =>
    have hn0 : nField w ≠ 0#4 := fun e => h (congrArg BitVec.toNat e)
    simp [decode, hop, hn0]
  case inr.inl =>
    simp only [List.mem_cons, List.not_mem_nil, or_false] at h
    rcases h with h | h | h | h | h | h | h <;> simp [decode, decodeOp8, hop, h]
  case inr.inr.inr.inl =>
    simp only [List.mem_cons, List.not_mem_nil, or_false, not_or] at h
    simp [decode, decodeOpE, hop, h]
  case inr.inr.inr.inr =>
    simp only [List.mem_cons, List.not_mem_nil, or_false, not_or] at h
    simp [decode, decodeOpF, hop, h]

/-- Only a word of R98's list is refused. -/
theorem illegalWord_of_decode_error {w : Word} {e : DecodeError} (h : decode w = .error e) : IllegalWord w := by
  rw [illegalWord_iff]
  unfold decode at h
  split at h
  case h_6 hop | h_10 hop =>
    split at h
    next => cases h
    next hn =>
      have hn0 : (nField w).toNat ≠ 0 := fun e => hn (BitVec.eq_of_toNat_eq e)
      omega
  case h_9 hop =>
    unfold decodeOp8 at h
    split at h
    case h_10 =>
      have hlt := (nField w).isLt
      simp only [imp_false, List.mem_cons, List.not_mem_nil, or_false] at *
      omega
    all_goals cases h
  case h_15 hop =>
    unfold decodeOpE at h
    split at h
    case h_3 =>
      simp only [imp_false, List.mem_cons, List.not_mem_nil, or_false] at *
      omega
    all_goals cases h
  case h_16 =>
    unfold decodeOpF at h
    split at h
    case h_10 =>
      have hlt := (opField w).isLt
      simp only [imp_false, List.mem_cons, List.not_mem_nil, or_false] at *
      omega
    all_goals cases h
  all_goals cases h

/-- Settles O5: illegal words are refused, and what is refused is illegal. -/
theorem illegalWordsAreRefused : Obligations.IllegalWordsAreRefused := by
  intro w
  refine ⟨decode_illegalWord, fun hlegal => ?_⟩
  cases hd : decode w with
  | ok i => exact ⟨i, rfl⟩
  | error e => exact absurd (illegalWord_of_decode_error hd) hlegal

/-! ### The table of masks and matches -/

/-! ### The table of masks and matches -/

/-- Two words are equal exactly when their opcode digits, their `x` and their low bytes are. -/
theorem word_eq_iff (w c : Word) : w = c ↔ opField w = opField c ∧ xField w = xField c ∧ kkField w = kkField c := by
  constructor
  · rintro rfl
    exact ⟨rfl, rfl, rfl⟩
  · rintro ⟨hop, hx, hkk⟩
    rw [← wordXKK_fields w, hop, hx, hkk, wordXKK_fields]

/-- Two words are equal exactly when their four digits are. -/
theorem word_eq_iff_digits (w c : Word) :
    w = c ↔ opField w = opField c ∧ xField w = xField c ∧ yField w = yField c ∧ nField w = nField c := by
  constructor
  · rintro rfl
    exact ⟨rfl, rfl, rfl, rfl⟩
  · rintro ⟨hop, hx, hy, hn⟩
    rw [← wordXYN_fields w, hop, hx, hy, hn, wordXYN_fields]

theorem opField_and (w m : Word) : opField (w &&& m) = opField w &&& opField m := BitVec.extractLsb'_and
theorem xField_and (w m : Word) : xField (w &&& m) = xField w &&& xField m := BitVec.extractLsb'_and
theorem yField_and (w m : Word) : yField (w &&& m) = yField w &&& yField m := BitVec.extractLsb'_and
theorem nField_and (w m : Word) : nField (w &&& m) = nField w &&& nField m := BitVec.extractLsb'_and
theorem kkField_and (w m : Word) : kkField (w &&& m) = kkField w &&& kkField m := BitVec.extractLsb'_and

/-! The fields of a word written as a numeral. -/

@[simp] theorem opField_ofNat (k : Nat) : opField (BitVec.ofNat 16 k) = BitVec.ofNat 4 (k / 4096) := by
  apply BitVec.eq_of_toNat_eq
  rw [opField_toNat, BitVec.toNat_ofNat, BitVec.toNat_ofNat]
  omega

@[simp] theorem xField_ofNat (k : Nat) : xField (BitVec.ofNat 16 k) = BitVec.ofNat 4 (k / 256) := by
  apply BitVec.eq_of_toNat_eq
  rw [xField_toNat, BitVec.toNat_ofNat, BitVec.toNat_ofNat]
  omega

@[simp] theorem yField_ofNat (k : Nat) : yField (BitVec.ofNat 16 k) = BitVec.ofNat 4 (k / 16) := by
  apply BitVec.eq_of_toNat_eq
  rw [yField_toNat, BitVec.toNat_ofNat, BitVec.toNat_ofNat]
  omega

@[simp] theorem nField_ofNat (k : Nat) : nField (BitVec.ofNat 16 k) = BitVec.ofNat 4 k := by
  apply BitVec.eq_of_toNat_eq
  rw [nField_toNat, BitVec.toNat_ofNat, BitVec.toNat_ofNat]
  omega

@[simp] theorem kkField_ofNat (k : Nat) : kkField (BitVec.ofNat 16 k) = BitVec.ofNat 8 k := by
  apply BitVec.eq_of_toNat_eq
  rw [kkField_toNat, BitVec.toNat_ofNat, BitVec.toNat_ofNat]
  omega

/-! What a row of the table tests, by its mask. -/

/-- A row with mask `FFFF` tests the whole word. -/
@[simp] theorem and_FFFF (w : Word) : w &&& 0xFFFF#16 = w := BitVec.and_allOnes (w := 16)

/-- A row with mask `F000` tests the opcode digit. -/
@[simp] theorem and_F000_eq (w c : Word) :
    w &&& 0xF000#16 = c ↔ opField w = opField c ∧ 0x0#4 = xField c ∧ 0x00#8 = kkField c := by
  rw [word_eq_iff, opField_and, xField_and, kkField_and, show opField 0xF000#16 = BitVec.allOnes 4 from rfl,
    show xField 0xF000#16 = 0x0#4 from rfl, show kkField 0xF000#16 = 0x00#8 from rfl, BitVec.and_allOnes,
    BitVec.and_zero, BitVec.and_zero]

/-- A row with mask `F0FF` tests the opcode digit and the low byte. -/
@[simp] theorem and_F0FF_eq (w c : Word) :
    w &&& 0xF0FF#16 = c ↔ opField w = opField c ∧ 0x0#4 = xField c ∧ kkField w = kkField c := by
  rw [word_eq_iff, opField_and, xField_and, kkField_and, show opField 0xF0FF#16 = BitVec.allOnes 4 from rfl,
    show xField 0xF0FF#16 = 0x0#4 from rfl, show kkField 0xF0FF#16 = BitVec.allOnes 8 from rfl, BitVec.and_allOnes,
    BitVec.and_zero, BitVec.and_allOnes]

/-- A row with mask `F00F` tests the opcode digit and the low digit. -/
@[simp] theorem and_F00F_eq (w c : Word) :
    w &&& 0xF00F#16 = c ↔ opField w = opField c ∧ 0x0#4 = xField c ∧ 0x0#4 = yField c ∧ nField w = nField c := by
  rw [word_eq_iff_digits, opField_and, xField_and, yField_and, nField_and,
    show opField 0xF00F#16 = BitVec.allOnes 4 from rfl, show xField 0xF00F#16 = 0x0#4 from rfl,
    show yField 0xF00F#16 = 0x0#4 from rfl, show nField 0xF00F#16 = BitVec.allOnes 4 from rfl, BitVec.and_allOnes,
    BitVec.and_zero, BitVec.and_zero, BitVec.and_allOnes]

/-- The first row of R95's table that fits a word. -/
def firstRow (w : Word) : Option Nat := shapeTable.findIdx? (fun row => w &&& row.1 == row.2)

/-- The word of a well-formed instruction fits the row of its shape and none before it. -/
theorem firstRow_encode {i : Instr} (h : i.WellFormed = true) : firstRow (encode i) = some (shapeRow i) := by
  cases i with
  | cls | ret => rfl
  | sys nnn =>
    simp only [Instr.WellFormed, Bool.and_eq_true, bne_iff_ne] at h
    have hne : ∀ c : Addr, nnn ≠ c → wordNNN 0x0#4 nnn ≠ wordNNN 0x0#4 c := fun c hc e =>
      hc (by simpa using congrArg nnnField e)
    have hcls : wordNNN 0x0#4 nnn ≠ 0x00E0#16 := hne 0x0E0#12 h.1
    have hret : wordNNN 0x0#4 nnn ≠ 0x00EE#16 := hne 0x0EE#12 h.2
    simp [firstRow, shapeTable, List.findIdx?_cons, beq_eq_decide, encode, shapeRow, hcls, hret]
  | _ => simp [firstRow, shapeTable, List.findIdx?_cons, beq_eq_decide, encode, shapeRow, word_eq_iff (wordNNN _ _),
      word_eq_iff (wordXKK _ _ _), word_eq_iff (wordXYN _ _ _ _)]

/-- No row fits an illegal word. -/
theorem firstRow_illegalWord {w : Word} (h : IllegalWord w) : firstRow w = none := by
  rw [illegalWord_iff] at h
  simp only [List.mem_cons, List.not_mem_nil, or_false, not_or, ne_eq, BitVec.toNat_eq_nat, Nat.reducePow,
    Nat.reduceLT, true_and] at h
  rcases h with ⟨hop, h⟩ | ⟨hop, h⟩ | ⟨hop, h⟩ | ⟨hop, h⟩ | ⟨hop, h⟩
  case inr.inl =>
    rcases h with h | h | h | h | h | h | h <;>
      simp [firstRow, shapeTable, List.findIdx?_cons, beq_eq_decide, word_eq_iff w, hop, h]
  all_goals simp [firstRow, shapeTable, List.findIdx?_cons, beq_eq_decide, word_eq_iff w, hop, h]

/-- Settles O4: a word that decodes is the word of a well-formed instruction and fits its row first; a word that does
not is illegal and fits none. -/
theorem decodePicksFirstMatchingRow : Obligations.DecodePicksFirstMatchingRow := by
  intro w
  show (decode w).toOption.map shapeRow = firstRow w
  cases hd : decode w with
  | ok i =>
    obtain ⟨rfl, hwf⟩ := encodeOfDecode w i hd
    exact (firstRow_encode hwf).symm
  | error e => exact (firstRow_illegalWord (illegalWord_of_decode_error hd)).symm

/-- Settles O1: each word is the word of its instruction, so the round trip decodes it. -/
theorem sampleWordsDecode : Obligations.SampleWordsDecode :=
  ⟨RoundTrip.cls rfl, RoundTrip.ret rfl, RoundTrip.sys 0x123#12 rfl, RoundTrip.jp 0x228#12 rfl,
    RoundTrip.sneImm 0xA#4 0x10#8 rfl, RoundTrip.subn 0x0#4 0x1#4 rfl, RoundTrip.shl 0x1#4 0x0#4 rfl,
    RoundTrip.rnd 0x1#4 0x0F#8 rfl, RoundTrip.drw 0x1#4 0x2#4 0x3#4 rfl, RoundTrip.skp 0x1#4 rfl,
    RoundTrip.ldVxK 0x3#4 rfl, RoundTrip.loadRegs 0x2#4 rfl⟩

end Sys2Proof.Proofs.Encoding
end

section
/-! What an instruction does, said once: the error it raises (`trap`), or the state it leaves (`effect`). The equation
`exec_eq` ties both to `exec`, and what holds of every instruction is then a case split over these two. -/

namespace Sys2Proof.Proofs.Effect

open Sys2Proof Sys2Proof.Machine Sys2Proof.Claims

/-! ### The trap of an instruction -/

/-- The error an access of `n` bytes through `I` raises (R66). -/
def accessTrap (n : Nat) (s : State) : Option RunError :=
  if leavesMemory s.i n then some (.outOfBounds s.pc (lowestNonCell s.i)) else none

/-- The error an instruction raises in a state, if it raises one (R201 to R205, `SYS_POLICY = fault`). -/
def trap (i : Instr) (s : State) : Option RunError :=
  match i with
  | .sys nnn => some (.invalidOpcode (wordNNN 0x0#4 nnn) s.pc)
  | .ret => if s.stack = [] then some (.stackUnderflow s.pc) else none
  | .call _ => if 16 ≤ s.stack.length then some (.stackOverflow s.pc 16) else none
  | .drw _ _ n => accessTrap n.toNat s
  | .ldB _ => accessTrap 3 s
  | .storeRegs x => accessTrap (x.toNat + 1) s
  | .loadRegs x => accessTrap (x.toNat + 1) s
  | _ => none

/-! ### The effect of an instruction -/

/-- `V[x] <- b`, then on to the next instruction (R133). -/
def withReg (x : Nibble) (b : Byte) (s : State) : State := (s.setV x b).advance

/-- `V[x] <- b`, then `VF <- flag`, then on to the next instruction (R132). -/
def withRegFlag (x : Nibble) (b flag : Byte) (s : State) : State := ((s.setV x b).setV vf flag).advance

/-- `PC` moves by 4 if the condition holds, else by 2 (R156). -/
def skipping (cond : Bool) (s : State) : State := s.setPc (if cond then s.pc + 4#16 else s.pc + 2#16)

/-- The state an instruction leaves where it raises nothing. -/
def effect (i : Instr) (s : State) : State :=
  match i with
  | .cls => (s.setFb Framebuffer.clear).advance
  | .ret => s.pop.setPc (s.stack.getLastD 0#16 + 2#16)
  | .sys _ => s
  | .jp nnn => s.setPc (zextAddr nnn)
  | .call nnn => (s.push s.pc).setPc (zextAddr nnn)
  | .seImm x kk => skipping (s.getV x == kk) s
  | .sneImm x kk => skipping (s.getV x != kk) s
  | .seReg x y => skipping (s.getV x == s.getV y) s
  | .ldImm x kk => withReg x kk s
  | .addImm x kk => withReg x (s.getV x + kk) s
  | .ldReg x y => withReg x (s.getV y) s
  | .orReg x y => withReg x (s.getV x ||| s.getV y) s
  | .andReg x y => withReg x (s.getV x &&& s.getV y) s
  | .xorReg x y => withReg x (s.getV x ^^^ s.getV y) s
  | .addReg x y => withRegFlag x (s.getV x + s.getV y) (carryFlag (s.getV x) (s.getV y)) s
  | .subReg x y => withRegFlag x (s.getV x - s.getV y) (notBorrowFlag (s.getV x) (s.getV y)) s
  | .shr x _ => withRegFlag x (s.getV x >>> 1) (shrFlag (s.getV x)) s
  | .subn x y => withRegFlag x (s.getV y - s.getV x) (notBorrowFlag (s.getV y) (s.getV x)) s
  | .shl x _ => withRegFlag x (s.getV x <<< 1) (shlFlag (s.getV x)) s
  | .sneReg x y => skipping (s.getV x != s.getV y) s
  | .ldI nnn => (s.setI (zextAddr nnn)).advance
  | .jpV0 nnn => s.setPc (zextAddr nnn + zextByte (s.getV 0#4))
  | .rnd x kk => withReg x ((Config.rngNext s.rng).1 &&& kk) (s.setRng (Config.rngNext s.rng).2)
  | .drw x y n => ((s.setFb (drawSprite x y n s).1).setV vf (flagByte (drawSprite x y n s).2)).advance
  | .skp x => skipping (s.keyDown (lowNibble (s.getV x))) s
  | .sknp x => skipping (!s.keyDown (lowNibble (s.getV x))) s
  | .ldVxDt x => withReg x s.dt s
  | .ldVxK x => s.kedge.elim s (fun k => ((s.setV x (zextKey k)).setKedge none).advance)
  | .ldDtVx x => (s.setDt (s.getV x)).advance
  | .ldStVx x => (s.setSt (s.getV x)).advance
  | .addI x => (s.setI (s.i + zextByte (s.getV x))).advance
  | .ldF x => (s.setI (glyphAddrFrom fontBase (lowNibble (s.getV x)))).advance
  | .ldB x => (s.storeAtI (bcdDigits (s.getV x))).advance
  | .storeRegs x => (s.storeAtI ((regsUpTo x).map s.getV)).advance
  | .loadRegs x => (s.loadFromI (regsUpTo x)).advance

/-! ### What an instruction answers -/

/-- The next state an instruction answers: the trap latched and nothing else, or the effect (R206). -/
def answer (i : Instr) (s : State) : State := (trap i s).elim (effect i s) (fun e => s.setErr (some e))

/-- A trap is latched, and nothing else changes (R206). -/
theorem answer_of_trap {i : Instr} {s : State} {e : RunError} (h : trap i s = some e) :
    answer i s = s.setErr (some e) := by
  rw [answer, h, Option.elim_some]

/-- With no trap an instruction has its effect. -/
theorem answer_of_no_trap {i : Instr} {s : State} (h : trap i s = none) : answer i s = effect i s := by
  rw [answer, h, Option.elim_none]

/-- A checked access traps or has its effect. -/
theorem checkedAccess_eq (n : Nat) (s body : State) :
    checkedAccess n s body = .next ((accessTrap n s).elim body (fun e => s.setErr (some e))) := by
  unfold accessTrap
  cases h : leavesMemory s.i n with
  | false => exact checkedAccess_ok h body
  | true => exact checkedAccess_raise h body

/-- Setting `I` to the value it has changes nothing, so a block access leaves it (R189, R190, `Q_MEM_INC = NONE`). -/
theorem loadFromI_setI (s : State) (regs : List Nibble) : (s.loadFromI regs).setI s.i = s.loadFromI regs := by
  obtain ⟨w, hw⟩ := (State.loadFromI_spec regs s).2
  rw [hw]
  rfl

/-- `CALL` on a full stack traps (R204). -/
theorem trap_call_full {s : State} (h : 16 ≤ s.stack.length) (nnn : Addr) :
    trap (.call nnn) s = some (.stackOverflow s.pc 16) := if_pos h

/-- `CALL` with room on the stack does not (R160). -/
theorem trap_call_room {s : State} (h : s.stack.length < 16) (nnn : Addr) : trap (.call nnn) s = none :=
  if_neg (by omega)

/-- `RET` on an empty stack traps (R205). -/
theorem trap_ret_empty {s : State} (h : s.stack = []) : trap .ret s = some (.stackUnderflow s.pc) := if_pos h

/-- `RET` with an entry on the stack does not (R161). -/
theorem trap_ret_pop {s : State} (h : s.stack ≠ []) : trap .ret s = none := if_neg h

/-- `RET` pops the newest entry and goes on 2 after it (R161). -/
theorem effect_ret {s : State} {r : Word} (h : s.stack.getLast? = some r) :
    effect .ret s = s.pop.setPc (r + 2#16) := by
  rw [effect, List.getLastD_eq_getLast?, h, Option.getD_some]

/-- `LD Vx, K` with a latched press takes it (R170). -/
theorem effect_ldVxK_edge {s : State} {k : Nibble} (h : s.kedge = some k) (x : Nibble) :
    effect (.ldVxK x) s = ((s.setV x (zextKey k)).setKedge none).advance := by
  rw [effect, h, Option.elim_some]

/-- `LD Vx, K` with no latched press has no effect (R170). -/
theorem effect_ldVxK_wait {s : State} (h : s.kedge = none) (x : Nibble) : effect (.ldVxK x) s = s := by
  rw [effect, h, Option.elim_none]

/-- Every instruction answers, with its trap latched or its effect had. -/
theorem exec_eq (i : Instr) (s : State) : exec i s = .next (answer i s) := by
  cases i with
  | ret =>
    cases h : s.stack.getLast? with
    | none =>
      have hs : s.stack = [] := List.getLast?_eq_none_iff.mp h
      rw [answer_of_trap (trap_ret_empty hs)]
      exact execRet_empty hs
    | some r =>
      have hs : s.stack ≠ [] := fun e => by simp [e] at h
      rw [answer_of_no_trap (trap_ret_pop hs), effect_ret h]
      exact execRet_pop h
  | call nnn =>
    rcases Nat.lt_or_ge s.stack.length 16 with h | h
    · rw [answer_of_no_trap (trap_call_room h nnn)]
      exact execCall_room h nnn
    · rw [answer_of_trap (trap_call_full h nnn)]
      exact execCall_full h nnn
  | ldVxK x =>
    cases h : s.kedge with
    | none =>
      rw [answer_of_no_trap rfl, effect_ldVxK_wait h]
      exact execLdVxK_wait h x
    | some k =>
      rw [answer_of_no_trap rfl, effect_ldVxK_edge h]
      exact execLdVxK_edge h x
  | drw x y n => exact checkedAccess_eq _ _ _
  | ldB x => exact checkedAccess_eq _ _ _
  | storeRegs x => exact checkedAccess_eq _ _ _
  | loadRegs x =>
    rw [answer, effect, ← loadFromI_setI]
    exact checkedAccess_eq _ _ _
  | _ => rfl

/-- What an instruction answers is its answer. -/
theorem eq_answer {i : Instr} {s t : State} (h : exec i s = .next t) : t = answer i s := by
  rw [exec_eq] at h
  cases h
  rfl

/-- Everything an instruction can answer: a trap with the error latched, or its effect. -/
theorem exec_cases {i : Instr} {s t : State} (h : exec i s = .next t) :
    (∃ e, trap i s = some e ∧ t = s.setErr (some e)) ∨ (trap i s = none ∧ t = effect i s) := by
  obtain rfl := eq_answer h
  cases ht : trap i s with
  | some e => exact .inl ⟨e, rfl, answer_of_trap ht⟩
  | none => exact .inr ⟨rfl, answer_of_no_trap ht⟩

/-- An instruction that does not trap answers its effect. -/
theorem exec_of_no_trap {i : Instr} {s : State} (h : trap i s = none) : exec i s = .next (effect i s) := by
  rw [exec_eq, answer_of_no_trap h]

/-- An instruction that traps answers the state with its error latched. -/
theorem exec_of_trap {i : Instr} {s : State} {e : RunError} (h : trap i s = some e) :
    exec i s = .next (s.setErr (some e)) := by
  rw [exec_eq, answer_of_trap h]

/-! ### When an access traps -/

/-- An access traps exactly when it has a byte and its last address is above 0xFFF (R66). -/
theorem accessTrap_eq_none_iff {n : Nat} {s : State} :
    accessTrap n s = none ↔ n = 0 ∨ s.i.toNat + n - 1 ≤ 0xFFF := by
  have hiff := leavesMemory_iff s.i n
  unfold accessTrap
  cases h : leavesMemory s.i n with
  | false =>
    have := hiff.not.mp (by simp [h])
    simp only [Bool.false_eq_true, if_false, true_iff]
    omega
  | true =>
    have := hiff.mp h
    simp only [if_true, reduceCtorEq, false_iff]
    omega

/-- The error of an access that traps (R203). -/
theorem accessTrap_eq_some_iff {n : Nat} {s : State} {e : RunError} :
    accessTrap n s = some e ↔
      (0 < n ∧ 0xFFF < s.i.toNat + n - 1) ∧ e = .outOfBounds s.pc (payloadAddr s.i) := by
  have hiff := leavesMemory_iff s.i n
  unfold accessTrap
  cases h : leavesMemory s.i n with
  | false =>
    have := hiff.not.mp (by simp [h])
    simp only [Bool.false_eq_true, if_false, reduceCtorEq, false_iff, not_and_or]
    omega
  | true =>
    have := hiff.mp h
    have hout : 0 < n ∧ 0xFFF < s.i.toNat + n - 1 := by omega
    simp only [if_true, hout, and_self, true_and, Option.some.injEq]
    exact eq_comm

end Sys2Proof.Proofs.Effect
end

section
/-! The statements about what no instruction does: the frame of the whole instruction set, the writers of the registers,
what is never read, and when the generator moves. -/

namespace Sys2Proof.Proofs.Frame

open Sys2Proof Sys2Proof.Machine Sys2Proof.Claims Sys2Proof.Proofs.Effect

/-! ### Frames of the updates -/

/-- A frame, part by part. -/
theorem sameBut_iff (l : List Field) (s t : State) : SameBut l s t ↔
    (.mem ∉ l → ∀ a, t.byteAt a = s.byteAt a) ∧ (.v ∉ l → ∀ r, t.getV r = s.getV r) ∧
    (.i ∉ l → t.i = s.i) ∧ (.pc ∉ l → t.pc = s.pc) ∧ (.stack ∉ l → t.stack = s.stack) ∧
    (.dt ∉ l → t.dt = s.dt) ∧ (.st ∉ l → t.st = s.st) ∧ (.fb ∉ l → ∀ x y, t.fb.pixel x y = s.fb.pixel x y) ∧
    (.key ∉ l → ∀ k, t.keyDown k = s.keyDown k) ∧ (.kedge ∉ l → t.kedge = s.kedge) ∧
    (.rng ∉ l → t.rng = s.rng) ∧ (.err ∉ l → t.err = s.err) := by
  constructor
  · intro h
    exact ⟨h .mem, h .v, h .i, h .pc, h .stack, h .dt, h .st, h .fb, h .key, h .kedge, h .rng, h .err⟩
  · rintro ⟨hmem, hv, hi, hpc, hstack, hdt, hst, hfb, hkey, hkedge, hrng, herr⟩ part
    cases part with
    | mem => exact hmem
    | v => exact hv
    | i => exact hi
    | pc => exact hpc
    | stack => exact hstack
    | dt => exact hdt
    | st => exact hst
    | fb => exact hfb
    | key => exact hkey
    | kedge => exact hkedge
    | rng => exact hrng
    | err => exact herr

theorem sameBut_refl (l : List Field) (s : State) : SameBut l s s := by simp [sameBut_iff]

/-- A frame may name more parts. -/
theorem sameBut_mono {l m : List Field} {s t : State} (h : SameBut l s t) (hm : l ⊆ m) : SameBut m s t :=
  fun part hpart => h part (fun hl => hpart (hm hl))

theorem sameBut_withReg (x : Nibble) (b : Byte) (s : State) : SameBut [.v, .pc] s (withReg x b s) := by
  simp [sameBut_iff, withReg]

theorem sameBut_withRegFlag (x : Nibble) (b flag : Byte) (s : State) :
    SameBut [.v, .pc] s (withRegFlag x b flag s) := by
  simp [sameBut_iff, withRegFlag]

theorem sameBut_skipping (cond : Bool) (s : State) : SameBut [.pc] s (skipping cond s) := Skip.sameBut_setPc s _

theorem sameBut_setErr (s : State) (e : Option RunError) : SameBut [.err] s (s.setErr e) := by simp [sameBut_iff]

theorem sameBut_storeAtI_advance (s : State) (bytes : List Byte) :
    SameBut [.mem, .pc] s (s.storeAtI bytes).advance := by
  simp [sameBut_iff]

/-- Loading registers writes registers only (R190). -/
theorem sameBut_loadFromI_advance (s : State) (regs : List Nibble) :
    SameBut [.v, .pc] s (s.loadFromI regs).advance := by
  obtain ⟨w, hw⟩ := (State.loadFromI_spec regs s).2
  rw [hw]
  simp [sameBut_iff, State.byteAt, State.keyDown]

theorem sameBut_ldVxK (x : Nibble) (s : State) : SameBut [.v, .kedge, .pc] s (effect (.ldVxK x) s) := by
  cases h : s.kedge with
  | none =>
    rw [effect_ldVxK_wait h]
    exact sameBut_refl _ s
  | some k =>
    rw [effect_ldVxK_edge h]
    simp [sameBut_iff]

/-- An instruction's effect is within the parts it may write. -/
theorem sameBut_effect (i : Instr) (s : State) : SameBut (mayWrite i) s (effect i s) := by
  cases i with
  | cls => exact Display.sameBut_setFb_advance s _
  | sys => exact sameBut_refl _ s
  | jp | jpV0 => exact Skip.sameBut_setPc s _
  | seImm | sneImm | seReg | sneReg | skp | sknp => exact sameBut_skipping _ s
  | ldImm | addImm | ldReg | orReg | andReg | xorReg | ldVxDt => exact sameBut_withReg _ _ s
  | addReg | subReg | shr | subn | shl => exact sameBut_withRegFlag _ _ _ s
  | ldI | addI | ldF => exact Index.sameBut_setI_advance s _
  | ldVxK x => exact sameBut_ldVxK x s
  | ldB | storeRegs => exact sameBut_storeAtI_advance s _
  | loadRegs => exact sameBut_loadFromI_advance s _
  | ret | call | rnd | drw | ldDtVx | ldStVx => simp [sameBut_iff, mayWrite, effect, withReg]

/-- Settles O47: a trap writes `ERR` only, an effect the parts the instruction may write. -/
theorem instructionsWriteOnlyTheirParts : Obligations.InstructionsWriteOnlyTheirParts := by
  intro i s t h
  rcases exec_cases h with ⟨e, -, rfl⟩ | ⟨-, rfl⟩
  · exact sameBut_mono (sameBut_setErr s _) (by simp)
  · exact sameBut_mono (sameBut_effect i s) (by simp)

/-- No effect latches or clears an error. -/
@[simp] theorem effect_err (i : Instr) (s : State) : (effect i s).err = s.err :=
  sameBut_effect i s .err (by cases i <;> simp [mayWrite])

/-! ### The writers of the registers -/

@[simp] theorem withReg_getV (x r : Nibble) (b : Byte) (s : State) :
    (withReg x b s).getV r = if r = x then b else s.getV r := by
  simp [withReg]

@[simp] theorem withRegFlag_getV (x r : Nibble) (b flag : Byte) (s : State) :
    (withRegFlag x b flag s).getV r = if r = 0xF#4 then flag else if r = x then b else s.getV r := by
  simp [withRegFlag, vf]

/-- A flag is 0 or 1 (R22). -/
theorem flagByte_eq_zero_or_one (c : Bool) : flagByte c = 0#8 ∨ flagByte c = 1#8 := by
  cases c with
  | false => exact .inl rfl
  | true => exact .inr rfl

/-- An effect changes a register only as a destination, and `VF` also as a flag. -/
theorem effect_getV_of_not_written {i : Instr} {r : Nibble} (hr : ¬ writesReg i r)
    (hf : r = 0xF#4 → ¬ writesFlag i) (s : State) : (effect i s).getV r = s.getV r := by
  cases i with
  | ldImm x | addImm x | ldReg x | orReg x | andReg x | xorReg x | rnd x | ldVxDt x =>
    have hx : r ≠ x := fun e => hr e.symm
    simp [effect, hx]
  | addReg x | subReg x | shr x | subn x | shl x =>
    have hx : r ≠ x := fun e => hr e.symm
    have hvf : r ≠ 0xF#4 := fun e => hf e trivial
    simp [effect, hx, hvf]
  | drw =>
    have hvf : r ≠ vf := fun e => hf e trivial
    simp [effect, hvf]
  | ldVxK x =>
    have hx : r ≠ x := fun e => hr e.symm
    cases h : s.kedge with
    | none => rw [effect_ldVxK_wait h]
    | some k => simp [effect_ldVxK_edge h, hx]
  | loadRegs x =>
    have hx : ¬ r.toNat ≤ x.toNat := hr
    rw [effect, State.advance_getV, State.loadFromI_getV, if_neg hx]
  | _ => exact sameBut_effect _ s .v (by simp [mayWrite]) r

/-- A flag writer that completes leaves 0 or 1 in `VF`. -/
theorem effect_getV_vf_of_writesFlag {i : Instr} (h : writesFlag i) (s : State) :
    (effect i s).getV 0xF#4 = 0#8 ∨ (effect i s).getV 0xF#4 = 1#8 := by
  cases i with
  | addReg | subReg | shr | subn | shl =>
    simp only [effect, withRegFlag_getV, if_true]
    exact flagByte_eq_zero_or_one _
  | drw =>
    simp only [effect, State.advance_getV, State.setV_getV, vf, if_true]
    exact flagByte_eq_zero_or_one _
  | _ => exact h.elim

/-- Settles O48: a trap writes no register, an effect only those it may. -/
theorem registerWriters : Obligations.RegisterWriters := by
  intro i s t h
  rcases exec_cases h with ⟨e, -, rfl⟩ | ⟨-, rfl⟩
  · exact ⟨fun r _ _ => rfl, fun _ => .inr (.inr rfl)⟩
  · refine ⟨fun r hr hf => effect_getV_of_not_written hr hf s, fun hf => ?_⟩
    rcases effect_getV_vf_of_writesFlag hf s with h0 | h1
    · exact .inl h0
    · exact .inr (.inl h1)

/-! ### The sound timer is never read -/

theorem trap_setSt (i : Instr) (s : State) (b : Byte) : trap i (s.setSt b) = trap i s := by cases i <;> rfl

/-- Loading registers commutes with a change that touches neither registers nor `I` nor memory. -/
theorem loadFromI_comm {f : State → State} (hv : ∀ s r b, (f s).setV r b = f (s.setV r b)) (hi : ∀ s, (f s).i = s.i)
    (hmem : ∀ s, (f s).mem = s.mem) (regs : List Nibble) (s : State) :
    (f s).loadFromI regs = f (s.loadFromI regs) := by
  induction regs generalizing s with
  | nil => rfl
  | cons r rest ih =>
    have hbyte : (f s).byteAt ((f s).i.toNat + r.toNat) = s.byteAt (s.i.toNat + r.toNat) := by
      rw [State.byteAt_eq, hi, hmem, State.byteAt_eq]
    calc (f s).loadFromI (r :: rest)
        = ((f s).setV r ((f s).byteAt ((f s).i.toNat + r.toNat))).loadFromI rest := rfl
      _ = (f (s.setV r (s.byteAt (s.i.toNat + r.toNat)))).loadFromI rest := by rw [hbyte, hv]
      _ = f (s.loadFromI (r :: rest)) := ih _

theorem loadFromI_setSt (regs : List Nibble) (s : State) (b : Byte) :
    (s.setSt b).loadFromI regs = (s.loadFromI regs).setSt b :=
  loadFromI_comm (f := (·.setSt b)) (fun _ _ _ => rfl) (fun _ => rfl) (fun _ => rfl) regs s

/-- An effect does not depend on `ST`, and `LD ST, Vx` alone changes it. -/
theorem effect_setSt (i : Instr) (s : State) (b : Byte) : ∃ c, effect i (s.setSt b) = (effect i s).setSt c := by
  cases i with
  | ldStVx x => exact ⟨s.getV x, rfl⟩
  | ldVxK x =>
    refine ⟨b, ?_⟩
    cases h : s.kedge with
    | none => rw [effect_ldVxK_wait h, effect_ldVxK_wait (s := s.setSt b) h]
    | some k =>
      rw [effect_ldVxK_edge h, effect_ldVxK_edge (s := s.setSt b) h]
      rfl
  | loadRegs x => exact ⟨b, by rw [effect, loadFromI_setSt]; rfl⟩
  | _ => exact ⟨b, rfl⟩

/-- Settles O49: neither the trap nor the effect depends on `ST`. -/
theorem soundTimerIsNeverRead : Obligations.SoundTimerIsNeverRead := by
  intro i s t b h
  show ∃ c, exec i (s.setSt b) = .next (t.setSt c)
  rcases exec_cases h with ⟨e, ht, rfl⟩ | ⟨ht, rfl⟩
  · exact ⟨b, exec_of_trap (by rw [trap_setSt, ht])⟩
  · obtain ⟨c, hc⟩ := effect_setSt i s b
    exact ⟨c, by rw [exec_of_no_trap (by rw [trap_setSt, ht]), hc]⟩

/-! ### The framebuffer is never read -/

theorem trap_setFb (i : Instr) (s : State) (f : Framebuffer) : trap i (s.setFb f) = trap i s := by cases i <;> rfl

theorem loadFromI_setFb (regs : List Nibble) (s : State) (f : Framebuffer) :
    (s.setFb f).loadFromI regs = (s.loadFromI regs).setFb f :=
  loadFromI_comm (f := (·.setFb f)) (fun _ _ _ => rfl) (fun _ => rfl) (fun _ => rfl) regs s

/-- No effect but that of `DRW` depends on the framebuffer outside it. -/
theorem effect_setFb {i : Instr} (hi : ¬ isDrw i) (s : State) (f : Framebuffer) :
    ∃ g, effect i (s.setFb f) = (effect i s).setFb g := by
  cases i with
  | drw => exact absurd trivial hi
  | cls => exact ⟨Framebuffer.clear, rfl⟩
  | ldVxK x =>
    refine ⟨f, ?_⟩
    cases h : s.kedge with
    | none => rw [effect_ldVxK_wait h, effect_ldVxK_wait (s := s.setFb f) h]
    | some k =>
      rw [effect_ldVxK_edge h, effect_ldVxK_edge (s := s.setFb f) h]
      rfl
  | loadRegs x => exact ⟨f, by rw [effect, loadFromI_setFb]; rfl⟩
  | _ => exact ⟨f, rfl⟩

/-- Of `DRW`'s effect only the framebuffer and `VF` depend on the framebuffer. -/
theorem effect_drw_setFb (x y n : Nibble) (s : State) (f : Framebuffer) :
    ∃ g b, effect (.drw x y n) (s.setFb f) = ((effect (.drw x y n) s).setFb g).setV vf b := by
  refine ⟨(drawSprite x y n (s.setFb f)).1, flagByte (drawSprite x y n (s.setFb f)).2, ?_⟩
  simp [effect, State.setV, State.setFb, State.advance, State.setPc]

/-- Settles O50: the trap does not depend on the framebuffer, the effect at most in it and, for `DRW`, in `VF`. -/
theorem framebufferIsNeverRead : Obligations.FramebufferIsNeverRead := by
  intro i s t f h
  show ∃ u, exec i (s.setFb f) = .next u ∧ _
  rcases exec_cases h with ⟨e, ht, rfl⟩ | ⟨ht, rfl⟩
  · exact ⟨_, exec_of_trap (by rw [trap_setFb, ht]), by simp [sameBut_iff], fun r _ => rfl, fun _ r => rfl⟩
  · refine ⟨_, exec_of_no_trap (by rw [trap_setFb, ht]), ?_⟩
    by_cases hi : isDrw i
    · cases i with
      | drw x y n =>
        obtain ⟨g, b, hg⟩ := effect_drw_setFb x y n s f
        rw [hg]
        refine ⟨by simp [sameBut_iff], fun r hr => ?_, fun hn => absurd hi hn⟩
        have hvf : r ≠ vf := hr
        simp [hvf]
      | _ => exact hi.elim
    · obtain ⟨g, hg⟩ := effect_setFb hi s f
      rw [hg]
      exact ⟨by simp [sameBut_iff], fun r _ => rfl, fun _ r => rfl⟩

/-! ### When the generator moves -/

/-- An instruction moves the generator by one draw if it is `RND`, else not at all (R180). -/
theorem answer_rng (i : Instr) (s : State) :
    (answer i s).rng = (fun g => (Config.rngNext g).2)^[if isRnd i then 1 else 0] s.rng := by
  cases i with
  | rnd => rfl
  | _ => exact instructionsWriteOnlyTheirParts _ s _ (exec_eq _ s) .rng (by simp [mayWrite])

/-- Settles O38, by induction on the list: each instruction adds its own draws. -/
theorem rngAdvancesOncePerRnd : Obligations.RngAdvancesOncePerRnd := by
  intro l
  induction l with
  | nil =>
    intro s t h
    cases h
    rfl
  | cons i rest ih =>
    intro s t h
    rw [runAll, exec_eq] at h
    rw [ih _ t h, answer_rng, ← Function.iterate_add_apply, List.countP_cons]

end Sys2Proof.Proofs.Frame
end

section
/-! The statements about the step (spec file 60) and about the invariant. -/

namespace Sys2Proof.Proofs.Step

open Sys2Proof Sys2Proof.Machine Sys2Proof.Claims Sys2Proof.Proofs.Effect Sys2Proof.Proofs.Frame
  Sys2Proof.Proofs.Encoding

/-! ### What is fetched and decoded -/

/-- The word at `PC`, high byte first (R63, R64). -/
def wordAtPc (s : State) : Word := wordOfBytes (s.byteAt s.pc.toNat) (s.byteAt (s.pc.toNat + 1))

theorem nextInstr_eq {s : State} (h : s.pc.toNat < 0xFFF) : nextInstr s = decodeOrRaise (wordAtPc s) s.pc :=
  nextInstr_of_fetch (fetch_ok h)

/-- An instruction found at `PC` is the one the fetched word decodes to. -/
theorem fetch_of_nextInstr_ok {s : State} {i : Instr} (h : nextInstr s = .ok i) :
    fetch s = .ok (wordAtPc s) ∧ decode (wordAtPc s) = .ok i := by
  have hpc := nextInstr_ok_pc h
  rw [nextInstr_eq hpc] at h
  refine ⟨fetch_ok hpc, ?_⟩
  cases hd : decode (wordAtPc s) with
  | ok j =>
    rw [decodeOrRaise_ok hd] at h
    cases h
    rfl
  | error e =>
    rw [decodeOrRaise_error hd] at h
    cases h

/-- Why no instruction is found at `PC`: the fetch is out of range, or the fetched word is illegal (R202, R203). -/
theorem nextInstr_error_cases {s : State} {e : RunError} (h : nextInstr s = .error e) :
    (0xFFF ≤ s.pc.toNat ∧ e = .outOfBounds s.pc (payloadAddr s.pc)) ∨
      (fetch s = .ok (wordAtPc s) ∧ IllegalWord (wordAtPc s) ∧ e = .invalidOpcode (wordAtPc s) s.pc) := by
  rcases Nat.lt_or_ge s.pc.toNat 0xFFF with hpc | hpc
  · rw [nextInstr_eq hpc] at h
    cases hd : decode (wordAtPc s) with
    | ok j =>
      rw [decodeOrRaise_ok hd] at h
      cases h
    | error d =>
      rw [decodeOrRaise_error hd] at h
      cases h
      exact .inr ⟨fetch_ok hpc, illegalWord_of_decode_error hd, rfl⟩
  · rw [nextInstr_error hpc] at h
    cases h
    exact .inl ⟨hpc, rfl⟩

/-- Settles O6: the two bytes make the word the step fetches, and it decodes to the instruction. -/
theorem stepRunsDecodedInstruction : Obligations.StepRunsDecodedInstruction := by
  intro s i herr hpc hd
  have hnext : nextInstr s = .ok i := by
    rw [nextInstr_eq hpc]
    exact decodeOrRaise_ok hd s.pc
  exact step_runs herr hnext

/-- Settles O7: there is no instruction to find from 0xFFF up, and the step raises that. -/
theorem fetchBeyondMemoryRaises : Obligations.FetchBeyondMemoryRaises :=
  fun _ herr hpc => step_raises herr (nextInstr_error hpc)

/-- Settles O8: an illegal word is refused by the decoder, and the step raises that. -/
theorem undecodableWordRaises : Obligations.UndecodableWordRaises := by
  rintro s w herr hpc rfl hill
  have hnext : nextInstr s = .error (.invalidOpcode (wordAtPc s) s.pc) := by
    rw [nextInstr_eq hpc]
    exact decodeOrRaise_error (decode_illegalWord hill) s.pc
  exact step_raises herr hnext

/-! ### Answers, errors, statuses -/

/-- Settles O10: by what a step finds: a latched error, no instruction, or one that answers. -/
theorem stepAlwaysAnswers : Obligations.StepAlwaysAnswers := by
  intro s
  cases herr : s.err with
  | some e => exact ⟨s, step_halted herr⟩
  | none =>
    cases hnext : nextInstr s with
    | error e => exact ⟨_, step_raises herr hnext⟩
    | ok i => exact ⟨answer i s, by rw [step_runs herr hnext, exec_eq]⟩

/-- A step that latches an error found no instruction, or one that traps; in both cases nothing else changes. -/
theorem step_latches {s t : State} {e : RunError} (herr : s.err = none) (h : step s = .next t) (he : t.err = some e) :
    t = s.setErr (some e) ∧ (nextInstr s = .error e ∨ ∃ i, nextInstr s = .ok i ∧ trap i s = some e) := by
  rcases step_cases h with ⟨hsome, -⟩ | ⟨-, e', hnext, rfl⟩ | ⟨-, i, hnext, hexec⟩
  · rw [herr] at hsome
    cases hsome
  · cases he
    exact ⟨rfl, .inl hnext⟩
  · rcases exec_cases hexec with ⟨e', htrap, rfl⟩ | ⟨-, rfl⟩
    · cases he
      exact ⟨rfl, .inr ⟨i, hnext, htrap⟩⟩
    · rw [effect_err, herr] at he
      cases he

/-- Settles O11: the first half of what a step that latches an error does. -/
theorem raisingStepChangesOnlyErr : Obligations.RaisingStepChangesOnlyErr :=
  fun _ _ _ herr h he => (step_latches herr h he).1

/-- Settles O12: an error comes from the fetch, from the decoder or from the trap of the instruction found, and the
traps are those of seven instructions. -/
theorem errorsHaveTheirListedCauses : Obligations.ErrorsHaveTheirListedCauses := by
  intro s t e herr h he
  obtain ⟨-, hnext | ⟨i, hnext, htrap⟩⟩ := step_latches herr h he
  · rcases nextInstr_error_cases hnext with ⟨hpc, rfl⟩ | ⟨hfetch, hill, rfl⟩
    · exact ⟨rfl, .inl ⟨hpc, rfl⟩⟩
    · exact ⟨rfl, hfetch, .inl hill⟩
  · cases i with
    | sys nnn =>
      cases htrap
      obtain ⟨hfetch, hd⟩ := fetch_of_nextInstr_ok hnext
      have hword : wordNNN 0x0#4 nnn = wordAtPc s := (encodeOfDecode _ _ hd).1
      rw [hword]
      exact ⟨rfl, hfetch, .inr ⟨nnn, hd⟩⟩
    | call nnn =>
      rcases Nat.lt_or_ge s.stack.length 16 with hs | hs
      · rw [trap_call_room hs] at htrap
        cases htrap
      · rw [trap_call_full hs] at htrap
        cases htrap
        exact ⟨rfl, rfl, hs, nnn, hnext⟩
    | ret =>
      by_cases hs : s.stack = []
      · rw [trap_ret_empty hs] at htrap
        cases htrap
        exact ⟨rfl, List.length_eq_zero_iff.mpr hs, hnext⟩
      · rw [trap_ret_pop hs] at htrap
        cases htrap
    | drw x y n =>
      obtain ⟨⟨hn, hout⟩, rfl⟩ := accessTrap_eq_some_iff.mp htrap
      exact ⟨rfl, .inr ⟨rfl, .inl ⟨x, y, n, hnext, hn, hout⟩⟩⟩
    | ldB x =>
      obtain ⟨⟨-, hout⟩, rfl⟩ := accessTrap_eq_some_iff.mp htrap
      exact ⟨rfl, .inr ⟨rfl, .inr (.inl ⟨x, hnext, hout⟩)⟩⟩
    | storeRegs x =>
      obtain ⟨⟨-, hout⟩, rfl⟩ := accessTrap_eq_some_iff.mp htrap
      exact ⟨rfl, .inr ⟨rfl, .inr (.inr ⟨x, .inl hnext, hout⟩)⟩⟩
    | loadRegs x =>
      obtain ⟨⟨-, hout⟩, rfl⟩ := accessTrap_eq_some_iff.mp htrap
      exact ⟨rfl, .inr ⟨rfl, .inr (.inr ⟨x, .inr hnext, hout⟩)⟩⟩
    | _ => cases htrap

/-- A step that ends with an error latched returns it (R200). -/
theorem stepTransaction_of_err {s t : State} {e : RunError} (h : step s = .next t) (he : t.err = some e) :
    stepTransaction s = .next (t, .err e) := by
  simp [stepTransaction, withStatus, h, he]

/-- A step that ends with none returns `WaitingForKey` or `Ok` (R200). -/
theorem stepTransaction_of_no_err {s t : State} (h : step s = .next t) (he : t.err = none) :
    stepTransaction s = .next (t, if waitsForKey s then .waitingForKey else .ok) := by
  simp [stepTransaction, withStatus, h, he]

/-- The step of a machine that waits for a key does nothing (R170). -/
theorem step_waitsForKey {s : State} (h : waitsForKey s = true) : step s = .next s := by
  obtain ⟨herr, hkedge, x, hnext⟩ := (waitsForKey_iff s).mp h
  rw [step_runs herr hnext]
  exact execLdVxK_wait hkedge x

/-- Settles O9: the step is the identity, and its status is the error that was and stays latched. -/
theorem haltedStepChangesNothing : Obligations.HaltedStepChangesNothing :=
  fun _ _ he => ⟨step_halted he, stepTransaction_of_err (step_halted he) he⟩

/-- Settles O13: by the error latched after the step, and then by whether the machine waits for a key. -/
theorem statusOfAStep : Obligations.StatusOfAStep := by
  intro s
  obtain ⟨t, h⟩ := stepAlwaysAnswers s
  cases he : t.err with
  | some e => exact ⟨t, .err e, h, stepTransaction_of_err h he, he⟩
  | none =>
    have hstatus := stepTransaction_of_no_err h he
    by_cases hw : waitsForKey s = true
    · rw [if_pos hw] at hstatus
      have ht : t = s := by
        rw [step_waitsForKey hw] at h
        cases h
        rfl
      exact ⟨t, .waitingForKey, h, hstatus, ht, (waitsForKey_iff s).mp hw⟩
    · rw [if_neg hw] at hstatus
      refine ⟨t, .ok, h, hstatus, he, fun hx => hw ((waitsForKey_iff s).mpr ⟨?_, hx⟩)⟩
      cases herr : s.err with
      | none => rfl
      | some e =>
        rw [step_halted herr] at h
        cases h
        rw [herr] at he
        cases he

/-- Settles O57: the word at 0x200 is `SYS 0`, which traps. -/
theorem stepAfterBareReset : Obligations.StepAfterBareReset := by
  have hnext : nextInstr State.reset = .ok (.sys 0x000#12) := by
    rw [nextInstr_eq (by decide)]
    exact decodeOrRaise_ok (by decide) _
  exact (step_runs rfl hnext).trans (exec_of_trap rfl)

/-! ### The invariant -/

/-- The invariant does not look at the parts beside memory, the stack and `PC`. -/
theorem inv_of_same {s t : State} (h : s.Inv) (hmem : t.mem = s.mem) (hstack : t.stack = s.stack)
    (hpc : t.pc.toNat ≤ 0x10FE) : t.Inv := by
  obtain ⟨hwf, hlen, hle, -⟩ := h
  refine ⟨?_, ?_, ?_, hpc⟩
  · rw [hmem]
    exact hwf
  · rw [hstack]
    exact hlen
  · rw [hstack]
    exact hle

/-- From a legal fetch address `PC` moves to at most 0x1002, far below its bound. -/
theorem pc_add_le {pc d : Word} (h : pc.toNat < 0xFFF) (hd : d.toNat ≤ 4) : (pc + d).toNat ≤ 0x10FE := by
  rw [BitVec.toNat_add]
  omega

/-- A block written where its access does not trap keeps memory's form. -/
theorem wf_writeBytes_of_no_trap {s : State} {bytes : List Byte} (h : s.mem.wf)
    (ht : accessTrap bytes.length s = none) : (s.mem.writeBytes s.i.toNat bytes).wf := by
  refine Memory.wf_writeBytes h bytes fun hne => ?_
  have hlen : 0 < bytes.length := List.length_pos_iff.mpr hne
  have hin := accessTrap_eq_none_iff.mp ht
  rw [Config.memSize]
  omega

/-- A block stored at `I` where its access does not trap keeps the invariant. -/
theorem inv_storeAtI_advance {s : State} {bytes : List Byte} (h : s.Inv) (hpc : s.pc.toNat < 0xFFF)
    (ht : accessTrap bytes.length s = none) : (s.storeAtI bytes).advance.Inv := by
  obtain ⟨hwf, hlen, hle, -⟩ := h
  exact ⟨wf_writeBytes_of_no_trap hwf ht, hlen, hle, pc_add_le hpc (by decide)⟩

/-- `CALL` pushes the address it was fetched from (R160, R161). -/
theorem inv_call {s : State} (h : s.Inv) (hpc : s.pc.toNat < 0xFFF) (hroom : s.stack.length < 16) (nnn : Addr) :
    ((s.push s.pc).setPc (zextAddr nnn)).Inv := by
  obtain ⟨hwf, -, hle, -⟩ := h
  refine ⟨hwf, ?_, ?_, ?_⟩
  · simp only [State.setPc_stack, State.push_stack, List.length_append, List.length_singleton]
    omega
  · intro r hr
    simp only [State.setPc_stack, State.push_stack, List.mem_append, List.mem_singleton] at hr
    rcases hr with hr | rfl
    · exact hle r hr
    · omega
  · rw [State.setPc_pc, Jump.zextAddr_toNat]
    have hlt := nnn.isLt
    omega

/-- `RET` goes on after a stack entry, which is a legal fetch address (R161). -/
theorem inv_ret {s : State} {r : Word} (h : s.Inv) (hr : s.stack.getLast? = some r) :
    (s.pop.setPc (r + 2#16)).Inv := by
  obtain ⟨hwf, hlen, hle, -⟩ := h
  have hmem : r ∈ s.stack := List.mem_of_getLast? hr
  refine ⟨hwf, ?_, fun q hq => hle q (List.mem_of_mem_dropLast hq), pc_add_le ?_ (by decide)⟩
  · rw [State.setPc_stack, State.pop_stack, List.length_dropLast]
    omega
  · have := hle r hmem
    omega

/-- The effect of an instruction fetched at a legal address keeps the invariant where it does not trap. -/
theorem inv_effect {i : Instr} {s : State} (h : s.Inv) (hpc : s.pc.toNat < 0xFFF) (ht : trap i s = none) :
    (effect i s).Inv := by
  cases i with
  | sys => exact h
  | jp nnn =>
    refine inv_of_same h rfl rfl ?_
    rw [effect, State.setPc_pc, Jump.zextAddr_toNat]
    have hlt := nnn.isLt
    omega
  | jpV0 nnn =>
    refine inv_of_same h rfl rfl ?_
    have hnnn := nnn.isLt
    have hv := (s.getV 0#4).isLt
    rw [effect, State.setPc_pc, BitVec.toNat_add, Jump.zextAddr_toNat, zextByte, BitVec.toNat_setWidth]
    omega
  | call nnn =>
    rcases Nat.lt_or_ge s.stack.length 16 with hs | hs
    · exact inv_call h hpc hs nnn
    · rw [trap_call_full hs] at ht
      cases ht
  | ret =>
    cases hs : s.stack.getLast? with
    | none =>
      rw [trap_ret_empty (List.getLast?_eq_none_iff.mp hs)] at ht
      cases ht
    | some r =>
      rw [effect_ret hs]
      exact inv_ret h hs
  | seImm | sneImm | seReg | sneReg | skp | sknp =>
    refine inv_of_same h rfl rfl ?_
    rw [effect, skipping, State.setPc_pc]
    split
    · exact pc_add_le hpc (by decide)
    · exact pc_add_le hpc (by decide)
  | ldVxK x =>
    cases hk : s.kedge with
    | none =>
      rw [effect_ldVxK_wait hk]
      exact h
    | some k =>
      rw [effect_ldVxK_edge hk]
      exact inv_of_same h rfl rfl (pc_add_le hpc (by decide))
  | ldB x => exact inv_storeAtI_advance h hpc (by rw [length_bcdDigits]; exact ht)
  | storeRegs x => exact inv_storeAtI_advance h hpc (by rw [List.length_map, length_regsUpTo]; exact ht)
  | loadRegs x =>
    obtain ⟨w, hw⟩ := (State.loadFromI_spec (regsUpTo x) s).2
    rw [effect, hw]
    exact inv_of_same h rfl rfl (pc_add_le hpc (by decide))
  | _ => exact inv_of_same h rfl rfl (pc_add_le hpc (by decide))

/-- Settles O59: a halted machine and a raised error leave all the invariant looks at, and an effect keeps it. -/
theorem stepKeepsInvariant : Obligations.StepKeepsInvariant := by
  intro s t h hstep
  rcases step_cases hstep with ⟨-, rfl⟩ | ⟨-, e, -, rfl⟩ | ⟨-, i, hnext, hexec⟩
  · exact h
  · exact h
  · rcases exec_cases hexec with ⟨e, -, rfl⟩ | ⟨ht, rfl⟩
    · exact h
    · exact inv_effect h (nextInstr_ok_pc hnext) ht

/-- Settles O58: memory and the stack are empty lists and `PC` is 0x200, whatever the seed. -/
theorem resetMeetsInvariant : Obligations.ResetMeetsInvariant := by
  intro seed
  refine ⟨Memory.wf_nil, ?_, ?_, ?_⟩
  · exact Nat.zero_le 16
  · intro r hr
    cases hr
  · show (0x0200#16).toNat ≤ 0x10FE
    decide

/-- A ROM that fits lies inside the address space, so that a load keeps the invariant (R252). -/
theorem inv_loadRom {s : State} (h : s.Inv) (bytes : List Byte) : (loadRom bytes s).1.Inv := by
  obtain ⟨hwf, hrest⟩ := h
  unfold loadRom
  split
  next => exact ⟨hwf, hrest⟩
  next hfits =>
    refine ⟨Memory.wf_writeBytes hwf bytes fun _ => ?_, hrest⟩
    simp only [Config.romMax, Config.progBase, Config.memSize] at *
    omega

/-- What pressing a key can do: nothing if it is down, else the press and its edge (R225). -/
theorem keySet_cases (k : Nibble) (s : State) :
    (s.keyDown k = true ∧ keySet k s = s) ∨
      (s.keyDown k = false ∧ keySet k s = (s.setKey k true).setKedge (some k)) := by
  cases h : s.keyDown k with
  | true => exact .inl ⟨rfl, if_pos h⟩
  | false => exact .inr ⟨rfl, if_neg (by rw [h]; decide)⟩

/-- Settles O60: by the transactions. -/
theorem transactionsKeepInvariant : Obligations.TransactionsKeepInvariant := by
  intro c d a r h hp
  cases a with
  | reset seed =>
    cases hp
    cases seed with
    | none => exact resetMeetsInvariant _
    | some seed => exact resetMeetsInvariant seed
  | loadRom bytes =>
    have hd := perform_loadRom hp
    rw [hd]
    exact inv_loadRom h bytes
  | step => exact stepKeepsInvariant _ _ h (perform_step hp)
  | tickTimers | keyClear =>
    cases hp
    exact h
  | keySet k =>
    cases hp
    rcases keySet_cases k c.machine with ⟨-, hk⟩ | ⟨-, hk⟩ <;> rw [hk] <;> exact h

end Sys2Proof.Proofs.Step
end

section
/-! The statements about single instructions that write a register, `I`, a timer or `PC` (spec files 40, 42 to 46). -/

namespace Sys2Proof.Proofs.Register

open Sys2Proof Sys2Proof.Machine Sys2Proof.Claims Sys2Proof.Laws Sys2Proof.Proofs.Effect Sys2Proof.Proofs.Frame

/-! ### Instructions that write one register -/

/-- What an instruction does that writes one register and goes on (R133). -/
theorem exec_withReg {i : Instr} {s : State} {x : Nibble} {b : Byte} (h : exec i s = .next (withReg x b s)) :
    ∃ t, exec i s = .next t ∧ (∀ r, t.getV r = if r = x then b else s.getV r) ∧ t.pc = s.pc + 2#16 ∧
      SameBut [.v, .pc] s t :=
  ⟨_, h, fun r => withReg_getV x r b s, rfl, sameBut_withReg x b s⟩

/-- The sum of two bytes is the one modulo 256. -/
theorem byte_add_eq (a b : Byte) : a + b = BitVec.ofNat 8 ((a.toNat + b.toNat) % 256) := by
  apply BitVec.eq_of_toNat_eq
  rw [BitVec.toNat_add, BitVec.toNat_ofNat, Nat.mod_mod]

/-- The difference of two bytes is the one modulo 256. -/
theorem byte_sub_eq (a b : Byte) : a - b = BitVec.ofNat 8 ((a.toNat + 256 - b.toNat) % 256) := by
  have hb := b.isLt
  apply BitVec.eq_of_toNat_eq
  rw [BitVec.toNat_sub, BitVec.toNat_ofNat]
  omega

/-- Settles O14: the instruction writes the immediate to one register. -/
theorem loadImmediate : Obligations.LoadImmediate :=
  fun x kk _ => ⟨RoundTrip.ldImm x kk rfl, exec_withReg rfl⟩

/-- Settles O15: it writes the sum, which bytes form modulo 256. -/
theorem addImmediate : Obligations.AddImmediate := by
  intro x kk s
  rw [← byte_add_eq]
  exact ⟨RoundTrip.addImm x kk rfl, exec_withReg rfl⟩

/-- Settles O16: it writes the value of the other register. -/
theorem loadRegister : Obligations.LoadRegister :=
  fun x y _ => ⟨RoundTrip.ldReg x y rfl, exec_withReg rfl⟩

/-- What an instruction does to `V[x]` bit by bit, when it writes a byte with those bits there. -/
theorem exec_withReg_bits {i : Instr} {s : State} {x : Nibble} {b : Byte} {bit : Nat → Bool}
    (h : exec i s = .next (withReg x b s)) (hbit : ∀ k, b.getLsbD k = bit k) :
    ∃ t, exec i s = .next t ∧ (∀ r, r ≠ x → t.getV r = s.getV r) ∧ (∀ k, (t.getV x).getLsbD k = bit k) ∧
      t.pc = s.pc + 2#16 ∧ SameBut [.v, .pc] s t := by
  obtain ⟨t, ht, hv, hpc, hsame⟩ := exec_withReg h
  refine ⟨t, ht, fun r hr => ?_, fun k => ?_, hpc, hsame⟩
  · rw [hv, if_neg hr]
  · rw [hv, if_pos rfl, hbit]

/-- Settles O17: each writes the byte whose bits are those of the operation. -/
theorem bitwiseLogic : Obligations.BitwiseLogic := by
  intro x y s
  refine ⟨?orReg, ?andReg, ?xorReg⟩
  case orReg => exact exec_withReg_bits rfl fun _ => BitVec.getLsbD_or
  case andReg => exact exec_withReg_bits rfl fun _ => BitVec.getLsbD_and
  case xorReg => exact exec_withReg_bits rfl fun _ => BitVec.getLsbD_xor

/-! ### Instructions that also write the flag -/

/-- What an instruction does that writes one register, then the flag, and goes on (R132). -/
theorem exec_withRegFlag {i : Instr} {s : State} {x : Nibble} {b flag : Byte}
    (h : exec i s = .next (withRegFlag x b flag s)) :
    ∃ t, exec i s = .next t ∧ (∀ r, t.getV r = if r = 0xF#4 then flag else if r = x then b else s.getV r) ∧
      t.pc = s.pc + 2#16 ∧ SameBut [.v, .pc] s t :=
  ⟨_, h, fun r => withRegFlag_getV x r b flag s, rfl, sameBut_withRegFlag x b flag s⟩

theorem carryFlag_eq (a b : Byte) : carryFlag a b = if 255 < a.toNat + b.toNat then 1#8 else 0#8 := by
  simp [carryFlag, flagByte]

theorem notBorrowFlag_eq (a b : Byte) : notBorrowFlag a b = if b.toNat ≤ a.toNat then 1#8 else 0#8 := by
  simp [notBorrowFlag, flagByte]

/-- A flag is its truth value as a number. -/
theorem flagByte_eq (c : Bool) : flagByte c = BitVec.ofNat 8 c.toNat := by cases c <;> rfl

/-- The bit `SHR` shifts out is the remainder by 2. -/
theorem shrFlag_eq (a : Byte) : shrFlag a = BitVec.ofNat 8 (a.toNat % 2) := by
  rw [shrFlag, flagByte_eq, BitVec.getLsbD, Nat.toNat_testBit, pow_zero, Nat.div_one]

/-- The bit `SHL` shifts out is the quotient by 128. -/
theorem shlFlag_eq (a : Byte) : shlFlag a = BitVec.ofNat 8 (a.toNat / 128) := by
  have ha := a.isLt
  rw [shlFlag, flagByte_eq, BitVec.getLsbD, Nat.toNat_testBit]
  congr 1
  omega

theorem byte_shr_eq (a : Byte) : a >>> 1 = BitVec.ofNat 8 (a.toNat / 2) := by
  apply BitVec.eq_of_toNat_eq
  rw [BitVec.toNat_ushiftRight, BitVec.toNat_ofNat, Nat.shiftRight_eq_div_pow]
  omega

theorem byte_shl_eq (a : Byte) : a <<< 1 = BitVec.ofNat 8 (a.toNat * 2 % 256) := by
  apply BitVec.eq_of_toNat_eq
  rw [BitVec.toNat_shiftLeft, BitVec.toNat_ofNat, Nat.shiftLeft_eq, Nat.mod_mod]

/-- Settles O18: the sum modulo 256 and then the carry. -/
theorem addWithCarry : Obligations.AddWithCarry := by
  intro x y s
  rw [← byte_add_eq, ← carryFlag_eq]
  exact ⟨RoundTrip.addReg x y rfl, exec_withRegFlag rfl⟩

/-- Settles O19: the difference modulo 256 and then the not-borrow. -/
theorem subtractNotBorrow : Obligations.SubtractNotBorrow := by
  intro x y s
  rw [← byte_sub_eq, ← byte_sub_eq, ← notBorrowFlag_eq, ← notBorrowFlag_eq]
  exact ⟨RoundTrip.subReg x y rfl, RoundTrip.subn x y rfl, exec_withRegFlag rfl, exec_withRegFlag rfl⟩

/-- Settles O20: half or double the source and then the bit shifted out. -/
theorem shiftByOne : Obligations.ShiftByOne := by
  intro x y s
  rw [← shrFlag_eq, ← shlFlag_eq, ← byte_shr_eq, ← byte_shl_eq]
  exact ⟨exec_withRegFlag rfl, exec_withRegFlag rfl⟩

/-! ### Key, timers, random -/

/-- Settles O35: without an edge the instruction is the identity, and the machine waits for a key. -/
theorem keyWaitHolds : Obligations.KeyWaitHolds := by
  intro x s hk
  refine ⟨execLdVxK_wait hk x, fun herr hnext => ?_⟩
  have hw : waitsForKey s = true := (waitsForKey_iff s).mpr ⟨herr, hk, x, hnext⟩
  rw [Step.stepTransaction_of_no_err (Step.step_waitsForKey hw) herr, if_pos hw]

/-- A key number keeps its value as a byte. -/
theorem zextKey_eq (k : Nibble) : zextKey k = BitVec.ofNat 8 k.toNat :=
  BitVec.eq_of_toNat_eq (by rw [zextKey, BitVec.toNat_setWidth, BitVec.toNat_ofNat])

/-- Settles O34: with an edge the key number is written and the edge cleared. -/
theorem keyWaitCompletes : Obligations.KeyWaitCompletes := by
  intro x k s hk
  refine ⟨((s.setV x (zextKey k)).setKedge none).advance, execLdVxK_edge hk x, ?_, rfl, rfl, ?_⟩
  · intro r
    rw [State.advance_getV, State.setKedge_getV, State.setV_getV, zextKey_eq]
  · simp [sameBut_iff]

/-- One tick takes a timer that is not 0 down by 1 (R220). -/
theorem countDown_toNat (b : Byte) : (countDown b).toNat = b.toNat - 1 := by
  unfold countDown
  split
  next h => rw [h]; rfl
  next h =>
    have hb : 1 ≤ b.toNat := Nat.one_le_iff_ne_zero.mpr fun e => h (BitVec.eq_of_toNat_eq e)
    rw [BitVec.toNat_sub_of_le hb]
    rfl

/-- Sound is active exactly while `ST` is not 0 (R221). -/
theorem soundActive_iff (s : State) : soundActive s = true ↔ s.st ≠ 0#8 := bne_iff_ne

/-- Settles O36: one update each; the tick counts the value just written down. -/
theorem timerAccess : Obligations.TimerAccess := by
  intro x s
  refine ⟨RoundTrip.ldVxDt x rfl, RoundTrip.ldDtVx x rfl, RoundTrip.ldStVx x rfl, exec_withReg rfl, ?dt, ?st⟩
  case dt => exact ⟨(s.setDt (s.getV x)).advance, rfl, rfl, countDown_toNat _, rfl, by simp [sameBut_iff]⟩
  case st => exact ⟨(s.setSt (s.getV x)).advance, rfl, rfl, soundActive_iff _, rfl, by simp [sameBut_iff]⟩

/-- Settles O37: the generator moves first, and the draw from its old state is masked into the register. -/
theorem randomByte : Obligations.RandomByte := by
  intro x kk s
  refine ⟨_, exec_of_no_trap rfl, rfl, fun r => ?_, rfl, sameBut_effect (.rnd x kk) s⟩
  rw [effect, withReg_getV, State.setRng_getV]

/-! ### Index register -/

/-- Zero extension of a byte keeps its value. -/
@[simp] theorem zextByte_toNat (b : Byte) : (zextByte b).toNat = b.toNat := BitVec.toNat_setWidth_of_le (by decide)

/-- The low 4 bits of a byte. -/
@[simp] theorem lowNibble_toNat (b : Byte) : (lowNibble b).toNat = b.toNat % 16 := by
  simp [lowNibble, BitVec.extractLsb'_toNat]

/-- Settles O40: the sum of two words, which is formed modulo 2^16. -/
theorem addToIndex : Obligations.AddToIndex := by
  intro x s
  refine ⟨_, exec_of_no_trap rfl, ?_, rfl, sameBut_effect (.addI x) s⟩
  rw [effect, State.advance_i, State.setI_i, BitVec.toNat_add, zextByte_toNat]

/-- Settles O41: `FONT_BASE` is 0 and 5 times a digit fits a word. -/
theorem loadGlyphAddress : Obligations.LoadGlyphAddress := by
  intro x s
  refine ⟨_, exec_of_no_trap rfl, ?_, rfl, sameBut_effect (.ldF x) s⟩
  rw [effect, State.advance_i, State.setI_i, glyphAddrFrom, fontBase, lowNibble_toNat, BitVec.toNat_ofNat]
  omega

/-! ### Skips on keys, jump, call, return, SYS -/

/-- Settles O25: the key tested is the one the low 4 bits of `V[x]` name. -/
theorem skipOnKey : Obligations.SkipOnKey := by
  intro x k s hk
  have hkey : lowNibble (s.getV x) = k := BitVec.eq_of_toNat_eq (by rw [lowNibble_toNat, hk])
  subst hkey
  exact ⟨Skip.skipIf_spec Iff.rfl s, Skip.skipIf_spec (iff_of_eq (Bool.not_eq_true' _)) s⟩

/-- Settles O27: the sum is at most 0xFFF + 0xFF, so it does not wrap. -/
theorem jumpPlusV0 : Obligations.JumpPlusV0 := by
  intro nnn s
  refine ⟨_, exec_of_no_trap rfl, ?_, sameBut_effect (.jpV0 nnn) s⟩
  have hnnn := nnn.isLt
  have hv := (s.getV 0#4).isLt
  rw [effect, State.setPc_pc, BitVec.toNat_add, Jump.zextAddr_toNat, zextByte_toNat]
  omega

/-- Settles O28: with room on the stack there is no trap, and the effect is the push and the jump. -/
theorem callPushes : Obligations.CallPushes := by
  intro nnn s hroom
  refine ⟨_, exec_of_no_trap (trap_call_room hroom nnn), rfl, ?_, Jump.zextAddr_toNat nnn,
    sameBut_effect (.call nnn) s⟩
  exact List.length_append

/-- Calls that find room succeed, and each adds an entry. -/
theorem runAll_calls (targets : List Addr) {s : State} (h : s.sp + targets.length ≤ 16) :
    ∃ t, runAll (targets.map Instr.call) s = .next t ∧ t.sp = s.sp + targets.length ∧ t.err = s.err := by
  induction targets generalizing s with
  | nil => exact ⟨s, rfl, rfl, rfl⟩
  | cons nnn rest ih =>
    rw [List.length_cons] at h
    have hroom : s.stack.length < 16 := by
      rw [State.sp] at h
      omega
    obtain ⟨u, hu, -, hsp, -, hsame⟩ := callPushes nnn s hroom
    obtain ⟨t, ht, htsp, hterr⟩ := ih (s := u) (by omega)
    have herr : u.err = s.err := hsame .err (by simp)
    refine ⟨t, ?_, ?_, hterr.trans herr⟩
    · rw [List.map_cons, runAll, hu]
      exact ht
    · rw [htsp, hsp, List.length_cons]
      omega

/-- `CALL` with 16 entries in use raises and changes nothing else (R204). -/
theorem exec_call_full (nnn : Addr) {s : State} (h : s.sp = 16) :
    exec (.call nnn) s = .next { s with err := some (.stackOverflow s.pc 16) } :=
  exec_of_trap (trap_call_full (Nat.le_of_eq h.symm) nnn)

/-- Settles O29: the first 16 calls find room, and then the stack is full. -/
theorem seventeenthCallOverflows : Obligations.SeventeenthCallOverflows := by
  refine ⟨fun nnn s => exec_call_full nnn, fun targets last s hsp hlen => ⟨fun k hk => ?_, ?_⟩⟩
  · have htake : (targets.take k).length = k := by
      rw [List.length_take]
      omega
    obtain ⟨t, ht, htsp, hterr⟩ := runAll_calls (targets.take k) (s := s) (by omega)
    exact ⟨t, ht, by omega, hterr⟩
  · obtain ⟨t, ht, htsp, -⟩ := runAll_calls targets (s := s) (by omega)
    exact ⟨t, ht, exec_call_full last (by omega)⟩

/-- Settles O30: the newest entry is the last of the list. -/
theorem returnPops : Obligations.ReturnPops := by
  intro l r s hs
  have hlast : s.stack.getLast? = some r := by rw [hs, List.getLast?_concat]
  refine ⟨s.pop.setPc (r + 2#16), execRet_pop hlast, ?_, rfl, by simp [sameBut_iff]⟩
  rw [State.setPc_stack, State.pop_stack, hs, List.dropLast_concat]

/-- Settles O31: an empty stack traps. -/
theorem returnOnEmptyUnderflows : Obligations.ReturnOnEmptyUnderflows :=
  fun _ hs => exec_of_trap (trap_ret_empty (List.length_eq_zero_iff.mp hs))

/-- Settles O32: the entry `RET` pops is the one `CALL` pushed. -/
theorem callThenReturn : Obligations.CallThenReturn := by
  intro nnn s hroom
  obtain ⟨t, ht, hstack, -⟩ := callPushes nnn s hroom
  refine ⟨t, ht, fun u hu => ?_⟩
  obtain ⟨w, hw, hwstack, hwpc, -⟩ := returnPops s.stack s.pc u (hu.trans hstack)
  exact ⟨w, hw, hwpc, hwstack, congrArg List.length hwstack⟩

/-- Settles O33: the word `0nnn` has the value of `nnn`. -/
theorem sysRaisesInvalidOpcode : Obligations.SysRaisesInvalidOpcode := by
  intro nnn s
  have hword : BitVec.ofNat 16 nnn.toNat = wordNNN 0x0#4 nnn := by
    have hnnn := nnn.isLt
    apply BitVec.eq_of_toNat_eq
    rw [wordNNN_toNat, BitVec.toNat_ofNat, BitVec.toNat_zero]
    omega
  rw [hword]
  exact exec_of_trap rfl

end Sys2Proof.Proofs.Register
end

section
/-! The statements about `DRW` (spec file 41). -/

namespace Sys2Proof.Proofs.Draw

open Sys2Proof Sys2Proof.Machine Sys2Proof.Claims Sys2Proof.Proofs.Effect Sys2Proof.Proofs.Frame

/-- The bytes read at rising addresses. -/
theorem getD_readBytes (m : Memory) {a n k : Nat} (h : k < n) : (m.readBytes a n).getD k 0#8 = m.read (a + k) := by
  simp [Memory.readBytes, List.getD_eq_getElem?_getD, h]

@[simp] theorem length_readBytes (m : Memory) (a n : Nat) : (m.readBytes a n).length = n := by
  simp [Memory.readBytes]

/-- The pixels the sprite of `Dxyn` flips, in the order of the loop (R140). -/
def cells (x y n : Nibble) (s : State) : List (Column × Row) :=
  spriteCells (s.getV x) (s.getV y) 0 (s.mem.readBytes s.i.toNat n.toNat)

theorem drawSprite_eq (x y n : Nibble) (s : State) : drawSprite x y n s = drawCells (cells x y n s) (s.fb, false) :=
  drawRows_eq _ _ _ _ _

/-- No pixel is flipped twice: a sprite has at most 15 rows. -/
theorem nodup_cells (x y n : Nibble) (s : State) : (cells x y n s).Nodup := by
  refine nodup_spriteCells _ _ _ _ ?_
  have hn := n.isLt
  rw [length_readBytes]
  omega

/-- The pixels flipped are those the sprite covers (R142). -/
theorem mem_cells_iff (x y n : Nibble) (s : State) (X : Column) (Y : Row) :
    (X, Y) ∈ cells x y n s ↔ Covers x y n s X Y := by
  rw [cells, mem_spriteCells, length_readBytes]
  constructor
  · rintro ⟨r, c, hr, hc, hbit, rfl, rfl⟩
    rw [getD_readBytes _ hr] at hbit
    exact ⟨r, c, hr, hc, hbit, rfl, by rw [rowOf, Nat.zero_add]⟩
  · rintro ⟨r, c, hr, hc, hbit, hX, hY⟩
    refine ⟨r, c, hr, hc, ?_, Fin.ext hX.symm, Fin.ext ?_⟩
    · rw [getD_readBytes _ hr]
      exact hbit
    · rw [rowOf, Nat.zero_add, hY]

theorem drawSprite_pixel_covered {x y n : Nibble} {s : State} {X : Column} {Y : Row} (h : Covers x y n s X Y) :
    (drawSprite x y n s).1.pixel X Y = !(s.fb.pixel X Y) := by
  rw [drawSprite_eq, (drawCells_spec _ (nodup_cells x y n s) _).1, decide_eq_true ((mem_cells_iff x y n s X Y).mpr h),
    Bool.xor_true]

theorem drawSprite_pixel_uncovered {x y n : Nibble} {s : State} {X : Column} {Y : Row} (h : ¬ Covers x y n s X Y) :
    (drawSprite x y n s).1.pixel X Y = s.fb.pixel X Y := by
  rw [drawSprite_eq, (drawCells_spec _ (nodup_cells x y n s) _).1,
    decide_eq_false ((mem_cells_iff x y n s X Y).not.mpr h), Bool.xor_false]

/-- A collision is a covered pixel that was on (R140). -/
theorem drawSprite_collision_iff (x y n : Nibble) (s : State) :
    (drawSprite x y n s).2 = true ↔ ∃ X Y, Covers x y n s X Y ∧ s.fb.pixel X Y = true := by
  rw [drawSprite_eq, (drawCells_spec _ (nodup_cells x y n s) _).2, Bool.false_or, List.any_eq_true, Prod.exists]
  simp only [mem_cells_iff]

/-- `DRW` does not trap inside the address space, nor with an empty sprite (R66). -/
theorem trap_drw {n : Nibble} {s : State} (h : n = 0#4 ∨ s.i.toNat + n.toNat - 1 ≤ 0xFFF) (x y : Nibble) :
    trap (.drw x y n) s = none := by
  refine accessTrap_eq_none_iff.mpr (h.imp_left fun hn => ?_)
  rw [hn]
  rfl

/-- `VF` after `DRW` is the collision bit. -/
theorem effect_drw_getV_vf (x y n : Nibble) (s : State) :
    (effect (.drw x y n) s).getV 0xF#4 = flagByte (drawSprite x y n s).2 := by
  simp [effect, vf]

/-- Settles O22: the loop flips the covered pixels and notes whether one of them was on. -/
theorem drawXorsTheSprite : Obligations.DrawXorsTheSprite := by
  intro x y n s h
  refine ⟨_, exec_of_no_trap (trap_drw h x y), fun X Y => drawSprite_pixel_covered,
    fun X Y => drawSprite_pixel_uncovered, fun hlit => ?_, fun hdark => ?_, fun r hr => ?_, rfl,
    sameBut_effect (.drw x y n) s⟩
  · rw [effect_drw_getV_vf, (drawSprite_collision_iff x y n s).mpr hlit]
    rfl
  · have hno : (drawSprite x y n s).2 = false := by
      rw [Bool.eq_false_iff, ne_eq, drawSprite_collision_iff]
      rintro ⟨X, Y, hcov, hon⟩
      rw [hdark X Y hcov] at hon
      cases hon
    rw [effect_drw_getV_vf, hno]
    rfl
  · exact effect_getV_of_not_written id (fun e => absurd e hr) s

/-- What a sprite covers depends on its bytes, `I` and its coordinates only. -/
theorem covers_congr {x y n : Nibble} {s u : State} (hi : u.i = s.i) (hx : u.getV x = s.getV x)
    (hy : u.getV y = s.getV y) (hmem : ∀ a, u.byteAt a = s.byteAt a) (X : Column) (Y : Row) :
    Covers x y n u X Y ↔ Covers x y n s X Y := by
  simp only [Covers, hi, hx, hy, hmem]

/-- Settles O23: the two draws cover the same pixels and flip each of them twice; a pixel that is cleared is a covered
one that was on. -/
theorem drawTwiceRestores : Obligations.DrawTwiceRestores := by
  intro x y n s h
  obtain ⟨t, ht, htcov, htunc, -⟩ := drawXorsTheSprite x y n s h
  refine ⟨t, ht, fun u hfb hi hx hy hmem => ?_⟩
  obtain ⟨w, hw, hwcov, hwunc, hwlit, hwdark, -⟩ := drawXorsTheSprite x y n u (by rw [hi]; exact h)
  have hcov := covers_congr (n := n) hi hx hy hmem
  refine ⟨w, hw, Framebuffer.ext fun X Y => ?_, ?_, ?_⟩
  · by_cases hc : Covers x y n s X Y
    · rw [hwcov X Y ((hcov X Y).mpr hc), hfb, htcov X Y hc, Bool.not_not]
    · rw [hwunc X Y ((hcov X Y).not.mpr hc), hfb, htunc X Y hc]
  · rintro ⟨X, Y, hon, hoff⟩
    refine hwlit ⟨X, Y, ?_, hon⟩
    by_contra hc
    rw [hwunc X Y hc, hon] at hoff
    cases hoff
  · intro hkept
    refine hwdark fun X Y hc => ?_
    by_contra hon
    have hon := Bool.eq_true_of_not_eq_false hon
    have hstill := hkept X Y hon
    rw [hwcov X Y hc, hon] at hstill
    cases hstill

end Sys2Proof.Proofs.Draw
end

section
/-! The statements about the accesses through `I` (spec file 46). -/

namespace Sys2Proof.Proofs.Block

open Sys2Proof Sys2Proof.Machine Sys2Proof.Claims Sys2Proof.Laws Sys2Proof.Proofs.Effect Sys2Proof.Proofs.Frame

/-- An access inside the address space does not trap (R66). -/
theorem accessTrap_inside {n : Nat} {s : State} (h : s.i.toNat + n - 1 ≤ 0xFFF) : accessTrap n s = none :=
  accessTrap_eq_none_iff.mpr (.inr h)

/-- An access beyond it traps (R66). -/
theorem accessTrap_beyond {n : Nat} {s : State} (hn : 0 < n) (h : 0xFFF < s.i.toNat + n - 1) :
    accessTrap n s = some (.outOfBounds s.pc (payloadAddr s.i)) :=
  accessTrap_eq_some_iff.mpr ⟨⟨hn, h⟩, rfl⟩

/-! ### Stores -/

/-- A stored byte is read at its offset. -/
theorem byteAt_storeAtI_inside {s : State} {bytes : List Byte} {k : Nat} (h : k < bytes.length) :
    (s.storeAtI bytes).byteAt (s.i.toNat + k) = bytes.getD k 0#8 := by
  rw [State.storeAtI_byteAt, if_pos (by omega), Nat.add_sub_cancel_left]

/-- A store leaves every other address alone. -/
theorem byteAt_storeAtI_outside {s : State} {bytes : List Byte} {a : Nat}
    (h : a < s.i.toNat ∨ s.i.toNat + bytes.length ≤ a) : (s.storeAtI bytes).byteAt a = s.byteAt a := by
  rw [State.storeAtI_byteAt, if_neg (by omega)]

/-- A decimal digit as a byte. -/
theorem digit_toNat {d : Nat} (h : d < 10) : (BitVec.ofNat 8 d).toNat = d := by
  rw [BitVec.toNat_ofNat]
  omega

/-- Settles O42: the three digits inside the address space, the trap from `I = 0xFFE` up. -/
theorem storeDecimalDigits : Obligations.StoreDecimalDigits := by
  intro x s
  refine ⟨RoundTrip.ldB x rfl, fun hin => ?_, fun hout => ?_⟩
  · have hv := (s.getV x).isLt
    have hlen := length_bcdDigits (s.getV x)
    refine ⟨_, exec_of_no_trap (accessTrap_inside (by omega)), ?_, ?_, ?_, fun a ha => ?_, rfl,
      sameBut_effect (.ldB x) s⟩
    · rw [effect, State.advance_byteAt, ← Nat.add_zero s.i.toNat, byteAt_storeAtI_inside (by omega)]
      exact digit_toNat (by omega)
    · rw [effect, State.advance_byteAt, byteAt_storeAtI_inside (by omega)]
      exact digit_toNat (by omega)
    · rw [effect, State.advance_byteAt, byteAt_storeAtI_inside (by omega)]
      exact digit_toNat (by omega)
    · exact byteAt_storeAtI_outside (by omega)
  · exact exec_of_trap (accessTrap_beyond (by decide) (by omega))

/-- Settles O43: register `V[r]` is byte `r` of the block stored at `I`. -/
theorem storeRegisterBlock : Obligations.StoreRegisterBlock := by
  intro x s hin
  have hlen : ((regsUpTo x).map s.getV).length = x.toNat + 1 := by rw [List.length_map, length_regsUpTo]
  refine ⟨_, exec_of_no_trap (accessTrap_inside hin), fun r hr => ?_, fun a ha => ?_, rfl,
    sameBut_effect (.storeRegs x) s⟩
  · rw [effect, State.advance_byteAt, byteAt_storeAtI_inside (by omega), getD_map_regsUpTo x r hr]
  · exact byteAt_storeAtI_outside (by omega)

/-- Settles O44: the listed registers hold their bytes, and the rest of the state is that of an advance. -/
theorem loadRegisterBlock : Obligations.LoadRegisterBlock := by
  intro x s hin
  have hpc : (effect (.loadRegs x) s).pc = s.pc + 2#16 := by
    obtain ⟨w, hw⟩ := (State.loadFromI_spec (regsUpTo x) s).2
    rw [effect, hw]
    rfl
  refine ⟨_, exec_of_no_trap (accessTrap_inside hin), fun r => ?_, hpc, sameBut_effect (.loadRegs x) s⟩
  rw [effect, State.advance_getV, State.loadFromI_getV]

/-- Settles O45: the three accesses trap, and a trap latches its error and nothing else. -/
theorem accessBeyondMemoryRaises : Obligations.AccessBeyondMemoryRaises := by
  intro x y n s
  refine ⟨fun hn hout => ?_, fun hout => ⟨?_, ?_⟩⟩
  · have hpos : 0 < n.toNat := Nat.pos_of_ne_zero fun e => hn (BitVec.eq_of_toNat_eq e)
    exact exec_of_trap (accessTrap_beyond hpos hout)
  · exact exec_of_trap (accessTrap_beyond (Nat.succ_pos _) hout)
  · exact exec_of_trap (accessTrap_beyond (Nat.succ_pos _) hout)

/-- Settles O46: the two bytes fetched are the two registers stored there. -/
theorem storeSeenByFetch : Obligations.StoreSeenByFetch := by
  intro x r s hin hr
  obtain ⟨t, ht, hstored, -⟩ := storeRegisterBlock x s hin
  refine ⟨t, ht, fun u hmem hpc => ?_⟩
  have hx := x.isLt
  have hnext : (r + 1#4).toNat = r.toNat + 1 := by
    rw [BitVec.toNat_add, show (1#4).toNat = 1 from rfl]
    omega
  have hhi : u.byteAt u.pc.toNat = s.getV r := by rw [hmem, hpc, hstored r (by omega)]
  have hlo : u.byteAt (u.pc.toNat + 1) = s.getV (r + 1#4) := by
    rw [hmem, hpc, Nat.add_assoc, ← hnext, hstored (r + 1#4) (by omega)]
  rw [fetch_ok (by omega), hhi, hlo]
  rfl

end Sys2Proof.Proofs.Block
end

section
/-! The statements about the transactions beside the step, and about reset (spec files 60 and 70). -/

namespace Sys2Proof.Proofs.Transactions

open Sys2Proof Sys2Proof.Machine Sys2Proof.Claims Sys2Proof.Proofs.Effect Sys2Proof.Proofs.Frame
  Sys2Proof.Proofs.Step Sys2Proof.Proofs.Register

/-! ### Ticks and keys -/

/-- Settles O51: both timers count down, each by its own rule. -/
theorem tickDecrementsBothTimers : Obligations.TickDecrementsBothTimers :=
  fun s => ⟨countDown_toNat s.dt, countDown_toNat s.st, by simp [sameBut_iff, tickTimers]⟩

/-- Settles O53: by whether the key is down. -/
theorem keyTransactions : Obligations.KeyTransactions := by
  intro k s
  refine ⟨fun hup => ?_, fun hdown => ?_, fun q => ?_, ?_⟩
  · rcases keySet_cases k s with ⟨hdown, -⟩ | ⟨-, hset⟩
    · rw [hup] at hdown
      cases hdown
    rw [hset]
    exact ⟨rfl, fun q => by rw [State.setKedge_keyDown, State.setKey_keyDown], by simp [sameBut_iff]⟩
  · exact if_pos hdown
  · rw [keyClear, State.setKey_keyDown]
  · simp [sameBut_iff, keyClear]

/-! ### Loads -/

/-- A ROM that fits is loaded at 0x200 (R252). -/
theorem loadRom_fits {bytes : List Byte} (h : bytes.length ≤ 3584) (s : State) :
    loadRom bytes s = (s.setMem (s.mem.writeBytes 0x200 bytes), .ok) :=
  if_neg (by rw [Config.romMax]; omega)

/-- One that does not is not loaded (R76). -/
theorem loadRom_too_large {bytes : List Byte} (h : 3584 < bytes.length) (s : State) :
    loadRom bytes s = (s, .romTooLarge bytes.length) := if_pos h

/-- Settles O54: a ROM that fits is one block write at 0x200. -/
theorem romLoadsVerbatimOrNotAtAll : Obligations.RomLoadsVerbatimOrNotAtAll := by
  intro bytes s
  refine ⟨fun hfits => ?_, fun hbig => loadRom_too_large hbig s⟩
  rw [loadRom_fits hfits]
  refine ⟨rfl, fun k hk => ?_, fun a ha => ?_, by simp [sameBut_iff]⟩
  · rw [State.byteAt_eq, State.setMem_mem, Memory.read_writeBytes, if_pos (by omega), Nat.add_sub_cancel_left]
  · rw [State.byteAt_eq, State.setMem_mem, Memory.read_writeBytes, if_neg (by omega), State.byteAt_eq]

/-- A load into an open window answers what `loadRom` does, and closes it exactly on success (R252). -/
theorem perform_loadRom_open {c : Session} (h : c.loadWindow = true) (bytes : List Byte) :
    c.perform (.loadRom bytes) =
      .next (⟨(loadRom bytes c.machine).1, (loadRom bytes c.machine).2 != .ok⟩, (loadRom bytes c.machine).2) := by
  simp [Session.perform, Session.performWith, h]

/-- A load into a closed window is refused by name (R252, entry 13). -/
theorem perform_loadRom_closed {c : Session} (h : c.loadWindow = false) (bytes : List Byte) :
    c.perform (.loadRom bytes) = .refused .loadRomOutsideWindow := by
  simp [Session.perform, Session.performWith, h]

/-- A step answers and closes the window (R252). -/
theorem perform_step_closes (c : Session) : ∃ t r, c.perform .step = .next (⟨t, false⟩, r) := by
  obtain ⟨t, r, -, hstatus, -⟩ := statusOfAStep c.machine
  exact ⟨t, r, by simp [Session.perform, Session.performWith, hstatus]⟩

/-- No transaction but a reset opens a closed window. -/
theorem perform_keeps_closed {c : Session} {t : Transaction} {q : Session × Result} (hc : c.loadWindow = false)
    (ht : ∀ seed, t ≠ .reset seed) (h : c.perform t = .next q) : q.1.loadWindow = false := by
  cases t with
  | reset seed => exact absurd rfl (ht seed)
  | loadRom bytes =>
    rw [perform_loadRom_closed hc] at h
    cases h
  | step =>
    obtain ⟨t, r, hstep⟩ := perform_step_closes c
    rw [hstep] at h
    cases h
    rfl
  | tickTimers | keySet | keyClear =>
    cases h
    exact hc

/-- No transactions without a reset among them open a closed window. -/
theorem performAll_keeps_closed {ts : List Transaction} {c : Session} {q : Session × List Result}
    (hc : c.loadWindow = false) (ht : ∀ seed, .reset seed ∉ ts) (h : c.performAll ts = .next q) :
    q.1.loadWindow = false := by
  induction ts generalizing c q with
  | nil =>
    cases h
    exact hc
  | cons t rest ih =>
    obtain ⟨r, rs, hfirst, hrest, -⟩ := performAll_cons h
    have hr : r.1.loadWindow = false :=
      perform_keeps_closed hc (fun seed e => ht seed (List.mem_cons.mpr (.inl e.symm))) hfirst
    exact ih (q := (q.1, rs)) hr (fun seed hmem => ht seed (List.mem_cons_of_mem _ hmem)) hrest

/-- Settles O55: what each transaction does to the window, and over a list the induction that none opens it. -/
theorem loadWindow : Obligations.LoadWindow := by
  refine ⟨fun c bytes hc => perform_loadRom_closed hc bytes, fun c bytes hc => ⟨fun hfits => ?_, fun hbig => ?_⟩,
    fun c => ?_, fun c seed => ⟨_, rfl, rfl⟩, ?_, fun c d ts rs hc ht h => performAll_keeps_closed hc ht h⟩
  · rw [perform_loadRom_open hc, loadRom_fits hfits]
    exact ⟨_, rfl, rfl⟩
  · obtain ⟨machine, window⟩ := c
    cases hc
    rw [perform_loadRom_open rfl, loadRom_too_large hbig]
    rfl
  · obtain ⟨t, r, hstep⟩ := perform_step_closes c
    exact ⟨_, r, hstep, rfl⟩
  · rintro c t (rfl | ⟨k, rfl⟩ | ⟨k, rfl⟩)
    · exact ⟨_, rfl, rfl⟩
    · exact ⟨_, rfl, rfl⟩
    · exact ⟨_, rfl, rfl⟩

/-! ### How long sound lasts -/

/-- Of the instructions only `LD ST, Vx` writes `ST` (R27). -/
theorem answer_st {i : Instr} (hi : ∀ x, i ≠ .ldStVx x) (s : State) : (answer i s).st = s.st := by
  cases i with
  | ldStVx x => exact absurd rfl (hi x)
  | _ => exact instructionsWriteOnlyTheirParts _ s _ (exec_eq _ s) .st (by simp [mayWrite])

/-- A step that does not execute `LD ST, Vx` leaves `ST` alone. -/
theorem step_st {s t : State} (hs : ¬ SetsSound s) (h : step s = .next t) : t.st = s.st := by
  rcases step_cases h with ⟨-, rfl⟩ | ⟨-, e, -, rfl⟩ | ⟨herr, i, hnext, hexec⟩
  · rfl
  · rfl
  · rw [eq_answer hexec]
    exact answer_st (fun x hx => hs ⟨herr, x, by rw [hnext, hx]⟩) s

/-- A transaction that is no reset and does not execute `LD ST, Vx` takes `ST` down by one if it is a tick, and leaves
it alone otherwise. -/
theorem perform_st {c : Session} {t : Transaction} {q : Session × Result} (hr : ∀ seed, t ≠ .reset seed)
    (hs : t = .step → ¬ SetsSound c.machine) (h : c.perform t = .next q) :
    q.1.machine.st.toNat = c.machine.st.toNat - if t == .tickTimers then 1 else 0 := by
  cases t with
  | reset seed => exact absurd rfl (hr seed)
  | tickTimers =>
    cases h
    exact countDown_toNat c.machine.st
  | step =>
    rw [step_st (hs rfl) (perform_step h)]
    rfl
  | loadRom bytes =>
    obtain ⟨m, hm⟩ := loadRom_state bytes c.machine
    rw [perform_loadRom h, hm]
    rfl
  | keyClear k =>
    cases h
    rfl
  | keySet k =>
    cases h
    rcases keySet_cases k c.machine with ⟨-, hk⟩ | ⟨-, hk⟩ <;> rw [hk] <;> rfl

/-- Over transactions that write `ST` by ticks only, it falls by one with each tick, down to 0. -/
theorem performAll_st {ts : List Transaction} {c : Session} {q : Session × List Result} (hn : NoSoundWrite c ts)
    (h : c.performAll ts = .next q) : q.1.machine.st.toNat = c.machine.st.toNat - ts.count .tickTimers := by
  induction ts generalizing c q with
  | nil =>
    cases h
    rfl
  | cons t rest ih =>
    obtain ⟨hr, hs, hrest⟩ := hn
    obtain ⟨r, rs, hfirst, hlater, -⟩ := performAll_cons h
    rw [ih (hrest _ _ hfirst) hlater, perform_st hr hs hfirst, List.count_cons]
    omega

/-- Settles O52: after `k` ticks `ST` is `v - k`, which is not 0 exactly while `k < v`. -/
theorem soundLastsForItsTicks : Obligations.SoundLastsForItsTicks := by
  refine ⟨soundActive_iff, fun x s _ => ⟨(s.setSt (s.getV x)).advance, rfl, fun c d ts rs hc hn h => ?_⟩⟩
  have hst := performAll_st hn h
  have hv : c.machine.st = s.getV x := by rw [hc]; rfl
  rw [hv] at hst
  rw [soundActive_iff, ne_eq, ← BitVec.toNat_inj, hst, BitVec.toNat_zero]
  omega

/-! ### Reset -/

/-- Memory after reset: the font, and 0 in every other cell (R31, R36). -/
theorem byteAt_resetWith (seed : Seed) (a : Nat) : (State.resetWith seed).byteAt a = font.getD a 0#8 := rfl

/-- Settles O56: a cell reads as the font's byte, and past the font's 80 bytes as 0. -/
theorem resetLeaves : Obligations.ResetLeaves := by
  intro seed
  refine ⟨fun r => ?_, rfl, rfl, rfl, rfl, rfl, fun X Y => Framebuffer.clear_pixel X Y, fun k => ?_, rfl, rfl, rfl,
    fun a ha => ?_, fun a _ => rfl⟩
  · exact Vector.getElem_replicate _
  · exact Vector.getElem_replicate _
  · exact List.getD_eq_default _ _ ha

end Sys2Proof.Proofs.Transactions
end
